-- ==== Sys2Proof/Word.lean ====
section
/-! DEFINITION. The words of the SRB: command words, bytes, coordinates, colour indices (spec/30_encoding.md R81). -/
namespace Sys2Proof

/-- A 64-bit command word (R80). -/
abbrev Cmd := BitVec 64

/-- A byte of the framebuffer, the asset space or the line buffer (R50). -/
abbrev Byte := BitVec 8

/-- A 16-bit operand field: `x`, `y`, `a` or `h` (R81). -/
abbrev Half := BitVec 16

/-- A 4-bit colour index (R16, R81). -/
abbrev Colour := BitVec 4

/-- A palette entry: an opaque 16-bit RGB565 value (R110, R111). -/
abbrev Rgb565 := BitVec 16

end Sys2Proof
end

