-- ==== Sys2Proof/Syntax.lean ====
section
/-! DEFINITION. The eight commands, one constructor per row of spec/opcode_table.json (spec/30_encoding.md R83, R84, R90). -/
namespace Sys2Proof

/-- A command with its operands, each of the width of its field (R81), in the operand order of R90. -/
inductive Instr where
  /-- `FBINIT` (R161). -/
  | fbinit
  /-- `FBFREE` (R162). -/
  | fbfree
  /-- `FILL y, h, c` (R163). -/
  | fill (y h : Half) (c : Colour)
  /-- `GLYPH x, y, c, s, a` (R121). -/
  | glyph (x y : Half) (c : Colour) (sc : Byte) (a : Half)
  /-- `ICON x, y, c, s, a` (R139). -/
  | icon (x y : Half) (c : Colour) (sc : Byte) (a : Half)
  /-- `SCANOUT` (R184). -/
  | scanout
  /-- `FBRD x, y` (R168). -/
  | fbrd (x y : Half)
  /-- `PALQ c` (R112). -/
  | palq (c : Colour)
  deriving DecidableEq, Repr

end Sys2Proof
end

