-- ==== Sys2Proof/WellFormed.lean ====
section
/-! DEFINITION. Well-formedness: of a command word, against the match and mask rows of spec/30_encoding.md R84; of a line of
assembly, against the field ranges of R90. Every term of `Instr` is well-formed by the widths of its operands. -/
namespace Sys2Proof

/-- A row of the table of R84: a word spells the row's command exactly when `w & mask = pattern`. -/
structure Row where
  /-- The `match` column. -/
  pattern : Cmd
  /-- The `mask` column. -/
  mask : Cmd
  deriving DecidableEq, Repr

/-- `w & mask = match` (R84). -/
def Row.spells (r : Row) (w : Cmd) : Bool := w &&& r.mask == r.pattern

/-- The row of R84 of a command, chosen by its mnemonic alone. -/
def rowOf : Instr → Row
  | .fbinit => ⟨0x1000000000000000#64, 0xFFFFFFFFFFFFFFFF#64⟩
  | .fbfree => ⟨0x2000000000000000#64, 0xFFFFFFFFFFFFFFFF#64⟩
  | .fill _ _ _ => ⟨0x3000000000000000#64, 0xF0FF00000000FFFF#64⟩
  | .glyph _ _ _ _ _ => ⟨0x4000000000000000#64, 0xF000000000000000#64⟩
  | .icon _ _ _ _ _ => ⟨0x5000000000000000#64, 0xF000000000000000#64⟩
  | .scanout => ⟨0x6000000000000000#64, 0xFFFFFFFFFFFFFFFF#64⟩
  | .fbrd _ _ => ⟨0x7000000000000000#64, 0xFFFFFFFF00000000#64⟩
  | .palq _ => ⟨0x8000000000000000#64, 0xF0FFFFFFFFFFFFFF#64⟩

/-- The eight rows of R84, in its order. -/
def rows : List Row :=
  [rowOf .fbinit, rowOf .fbfree, rowOf (.fill 0 0 0), rowOf (.glyph 0 0 0 0 0), rowOf (.icon 0 0 0 0 0),
   rowOf .scanout, rowOf (.fbrd 0 0), rowOf (.palq 0)]

/-- A command word is well-formed when it spells some row of R84; every other word is illegal (R85, R86). -/
def wellFormedWord (w : Cmd) : Bool := rows.any fun r => r.spells w

/-- A line of assembly (R90, R91), its operands unbounded numbers as written; `char` and `text` are the host's
pseudo-instructions, with character codes of eight bits. -/
inductive AsmLine where
  | fbinit
  | fbfree
  | fill (y h c : Nat)
  | glyph (x y c s a : Nat)
  | icon (x y c s a : Nat)
  | scanout
  | fbrd (x y : Nat)
  | palq (c : Nat)
  | char (x y c s : Nat) (ch : Byte)
  | text (x y c s : Nat) (t : List Byte)
  deriving DecidableEq, Repr

/-- Whether the operands of a command fit their fields (R90): `c <= 15`, `s <= 255`, `x`, `y`, `h`, `a <= 65535`. For a
pseudo-instruction the check is made on the GLYPH lines it expands to (R156). -/
def AsmLine.fits : AsmLine → Bool
  | .fbinit => true
  | .fbfree => true
  | .fill y h c => decide (y ≤ 65535) && decide (h ≤ 65535) && decide (c ≤ 15)
  | .glyph x y c s a =>
    decide (x ≤ 65535) && decide (y ≤ 65535) && decide (c ≤ 15) && decide (s ≤ 255) && decide (a ≤ 65535)
  | .icon x y c s a =>
    decide (x ≤ 65535) && decide (y ≤ 65535) && decide (c ≤ 15) && decide (s ≤ 255) && decide (a ≤ 65535)
  | .scanout => true
  | .fbrd x y => decide (x ≤ 65535) && decide (y ≤ 65535)
  | .palq c => decide (c ≤ 15)
  | .char _ _ _ _ _ => true
  | .text _ _ _ _ _ => true

end Sys2Proof
end

