-- ==== Sys2Proof/Decode.lean ====
section
/-! DEFINITION. The decoder, total on every 64-bit word and rejecting by name (spec/30_encoding.md R81 to R88), and after it
the encoder (R81, R84, R92). -/
namespace Sys2Proof

/-- Why a word is illegal; both take the IllegalCommand fault (R191). -/
inductive DecodeError where
  /-- `op` is 0x0 or 0x9 to 0xF (R86). -/
  | reservedOpcode
  /-- A field R84 marks 0 for the command is not zero (R85). -/
  | reservedField
  deriving DecidableEq, Repr

/-- Field `op`, bits 63:60 (R81). -/
def fieldOp (w : Cmd) : BitVec 4 := w.extractLsb' 60 4

/-- Field `c`, bits 59:56 (R81). -/
def fieldC (w : Cmd) : Colour := w.extractLsb' 56 4

/-- Field `s`, bits 55:48 (R81). -/
def fieldS (w : Cmd) : Byte := w.extractLsb' 48 8

/-- Field `a`, bits 47:32 (R81). -/
def fieldA (w : Cmd) : Half := w.extractLsb' 32 16

/-- Field `y`, bits 31:16 (R81). -/
def fieldY (w : Cmd) : Half := w.extractLsb' 16 16

/-- Field `x`, bits 15:0 (R81). -/
def fieldX (w : Cmd) : Half := w.extractLsb' 0 16

/-- The reserved-field test (R85): the command, if the fields its row marks 0 are all zero. -/
def ifReservedZero (ok : Bool) (i : Instr) : Except DecodeError Instr :=
  if ok then .ok i else .error .reservedField

/-- The command a word spells, or why it spells none (R83, R84, R88). -/
def decode (w : Cmd) : Except DecodeError Instr :=
  match (fieldOp w).toNat with
  | 0x1 => ifReservedZero (fieldC w == 0 && fieldS w == 0 && fieldA w == 0 && fieldY w == 0 && fieldX w == 0) .fbinit
  | 0x2 => ifReservedZero (fieldC w == 0 && fieldS w == 0 && fieldA w == 0 && fieldY w == 0 && fieldX w == 0) .fbfree
  | 0x3 => ifReservedZero (fieldS w == 0 && fieldX w == 0) (.fill (fieldY w) (fieldA w) (fieldC w))
  | 0x4 => .ok (.glyph (fieldX w) (fieldY w) (fieldC w) (fieldS w) (fieldA w))
  | 0x5 => .ok (.icon (fieldX w) (fieldY w) (fieldC w) (fieldS w) (fieldA w))
  | 0x6 => ifReservedZero (fieldC w == 0 && fieldS w == 0 && fieldA w == 0 && fieldY w == 0 && fieldX w == 0) .scanout
  | 0x7 => ifReservedZero (fieldC w == 0 && fieldS w == 0 && fieldA w == 0) (.fbrd (fieldX w) (fieldY w))
  | 0x8 => ifReservedZero (fieldS w == 0 && fieldA w == 0 && fieldY w == 0 && fieldX w == 0) (.palq (fieldC w))
  | _ => .error .reservedOpcode

/-- The instruction read from a word of the opcode table's numbering (log 15): the one word of R80, its bits above
`nbits` zero. -/
def decodeTableWord (nbits w : Nat) : Option Instr :=
  if nbits ≤ 64 ∧ w < 2 ^ nbits then
    match decode (BitVec.ofNat 64 w) with
    | .ok i => some i
    | .error _ => none
  else none

/-- A word from its six fields, `op` the most significant (R81). -/
def pack (op : BitVec 4) (c : Colour) (s : Byte) (a y x : Half) : Cmd :=
  op ++ c ++ s ++ a ++ y ++ x

/-- The word of a command: its opcode (R83), its operands in their fields and zero in every other field (R84, R90). -/
def encode : Instr → Cmd
  | .fbinit => pack 0x1 0 0 0 0 0
  | .fbfree => pack 0x2 0 0 0 0 0
  | .fill y h c => pack 0x3 c 0 h y 0
  | .glyph x y c sc a => pack 0x4 c sc a y x
  | .icon x y c sc a => pack 0x5 c sc a y x
  | .scanout => pack 0x6 0 0 0 0 0
  | .fbrd x y => pack 0x7 0 0 0 y x
  | .palq c => pack 0x8 c 0 0 0 0

end Sys2Proof
end

