-- ==== Sys2Proof/Config.lean ====
section
/-! DEFINITION. What an implementation fixes (spec/00_scope.md R9) and the free values of the spec. -/
namespace Sys2Proof

/-- The parameters of the hardware (R9), which a model takes as arguments. They are carried in the state, so that a
statement about every state is a statement about every choice of them; no step changes them (R31, R34, R37). -/
structure Params where
  /-- `W`, the display width in pixels, as DIMW returns it (R9, R31). -/
  dimW : BitVec 16
  /-- `H`, the display height in pixels, as DIMH returns it (R9, R31). -/
  dimH : BitVec 16
  /-- `PAL[0..15]` (R9, R34). -/
  palette : Vector Rgb565 16
  /-- `ASSET_SIZE`, the number of bytes of the asset space (R9, R53). -/
  assetSize : Nat
  /-- `FONT_BASE`, the asset address of the glyph of code 0x20; host software only (R9, R152). -/
  fontBase : Nat
  deriving DecidableEq, Repr

/-- `W` as the unbounded number of R11. -/
def Params.W (p : Params) : Nat := p.dimW.toNat

/-- `H` as the unbounded number of R11. -/
def Params.H (p : Params) : Nat := p.dimH.toNat

/-- The ranges R9 gives the parameters: `1 <= W <= 65535`, `1 <= H <= 65535`, `ASSET_SIZE <= 65536` (the upper bounds of
`W` and `H` hold by their width). -/
abbrev Params.Valid (p : Params) : Prop := 1 ≤ p.W ∧ 1 ≤ p.H ∧ p.assetSize ≤ 65536

namespace Config

/-- `SMAX`, the largest scale operand (R9). -/
def smax : Nat := 255

/-- `W - 1` of this implementation: OPEN (R9), log 1. -/
opaque widthMinusOne : Fin 65535

/-- `H - 1` of this implementation: OPEN (R9), log 1. -/
opaque heightMinusOne : Fin 65535

/-- The palette of this implementation: OPEN (R9, R110), log 1. -/
opaque paletteEntry : Fin 16 → Rgb565

/-- `ASSET_SIZE` of this implementation: OPEN, 0 to 65536 (R9), log 1. -/
opaque assetSize : Fin 65537

/-- The asset bytes loaded before use: OPEN (R9, R223), log 6. -/
opaque assetByte : Nat → Byte

/-- `FONT_BASE` of this implementation: OPEN (R9), log 1. -/
opaque fontBase : Nat

/-- The environment's answer `alloc_ok` at draw `n`, where `State.allocIn` lists none: a free value (R12, R161), log 2. -/
opaque allocOk : Nat → Bool

/-- The unspecified byte `k` of the line buffer after the reset that takes draw `n`: a free value (R33, R38), log 4. -/
opaque lineByte : Nat → Nat → Byte

/-- The parameters of this implementation, every one of them open. -/
def params : Params where
  dimW := BitVec.ofNat 16 (widthMinusOne.val + 1)
  dimH := BitVec.ofNat 16 (heightMinusOne.val + 1)
  palette := Vector.ofFn paletteEntry
  assetSize := assetSize.val
  fontBase := fontBase

end Config
end Sys2Proof
end

