-- ==== Sys2Proof/Machine/Memory.lean ====
section
/-! DEFINITION. A byte memory as plain data, used for the framebuffer, the asset space and the line buffer
(spec/20_memory.md R50, R59: every access is one byte wide). -/
namespace Sys2Proof.Machine

/-- A byte memory: its cells by address, in the canonical form `Memory.wf`. -/
abbrev Memory := List Host.Cell

/-- What an unlisted address reads as: 0x00. For the framebuffer this is FBINIT's zeroing (R161, log 3); for the asset
space and the line buffer it is only how their bytes are written down (log 6, log 4). -/
def Memory.unlisted : Byte := 0x00

/-- The canonical form: addresses strictly rising, and no cell equal to what an unlisted address reads as. -/
abbrev Memory.wf (m : Memory) : Prop :=
  m.Pairwise (fun p q => p.1 < q.1) ∧ ∀ p ∈ m, p.2 ≠ Memory.unlisted

/-- The byte at address `k`. -/
def Memory.read (m : Memory) (k : Nat) : Byte := (m.lookup k).getD Memory.unlisted

/-- A cell put in its place by address. -/
def Memory.insert (k : Nat) (v : Byte) : Memory → Memory
  | [] => [(k, v)]
  | p :: m => if p.1 < k then p :: Memory.insert k v m else (k, v) :: p :: m

/-- Write byte `v` at address `k`; writing what an unlisted address reads as takes the cell out. -/
def Memory.write (m : Memory) (k : Nat) (v : Byte) : Memory :=
  let rest := m.filter fun p => p.1 != k
  if v = Memory.unlisted then rest else Memory.insert k v rest

/-- Write the same byte at each address of a list, in its order (R60 c: every write of a command stores the same byte). -/
def Memory.fill (m : Memory) (ks : List Nat) (v : Byte) : Memory := ks.foldl (fun m k => Memory.write m k v) m

/-- The memory of the `n` bytes `f 0 .. f (n - 1)` at addresses `0 .. n - 1`. -/
def Memory.tabulate (n : Nat) (f : Nat → Byte) : Memory :=
  (List.range n).filterMap fun k => if f k = Memory.unlisted then none else some (k, f k)

/-- Every cell lies below address `n` (R50: the size of a space). -/
abbrev Memory.below (m : Memory) (n : Nat) : Prop := ∀ p ∈ m, p.1 < n

end Sys2Proof.Machine
end

