-- ==== Sys2Proof/Machine/State.lean ====
section
/-! DEFINITION. The state of the SRB and of the agents around it, and the state after reset (spec/10_state.md R20 to R38). -/
namespace Sys2Proof.Machine

/-- Why the model stops. No command of the SRB stops it: every fault of the spec is a next state (R200). -/
inductive Fault where
  /-- Raised by the host action `writeAsset` at an address at or beyond `ASSET_SIZE`: the spec says no such byte exists
  (R53, R65). Safe: the machine stops where the spec gives no effect (log 6). -/
  | assetAddressAbsent
  deriving DecidableEq, Repr

/-- Why a command is given no meaning. -/
inductive Refusal where
  /-- Raised by no arm of `exec`: every command has its meaning. Safe. -/
  | notModelled (mnemonic : String)
  deriving DecidableEq, Repr

/-- The fault causes the SRB raises (R190); code 8 (IconMalformed) is never raised (R202). -/
inductive Cause where
  | illegalCommand
  | allocationFailure
  | fbAbsent
  | fbHeld
  | outOfBounds
  | assetOutOfRange
  | iconTruncated
  | illegalScale
  deriving DecidableEq, Repr

/-- One transport event `write_line(i, bytes)` (R183). -/
structure LineEvent where
  /-- The line index `i`. -/
  index : Nat
  /-- The `2*H` bytes of the line, pixel `y = 0` first, each pixel high byte first (R182). -/
  bytes : List Byte
  deriving DecidableEq, Repr

/-- What the host may do (R233), one action a step (log 7). -/
inductive HostAction where
  /-- Issue a command word while the SRB is idle (R21, R228). -/
  | command (w : Cmd)
  /-- Assert `rst` while the SRB is idle (R220). -/
  | reset
  /-- Issue a command word and assert `rst` while the command is in progress; `lines` is the draw `k` of R221, the number of
  events a SCANOUT has emitted by then (log 8). -/
  | resetDuring (w : Cmd) (lines : Nat)
  /-- Change one byte of the asset space between commands (R63, R230). -/
  | writeAsset (addr : Nat) (byte : Byte)
  /-- Read a status register by its number (R25). -/
  | readStatus (n : Nat)
  deriving DecidableEq, Repr

/-- The state. Derived views (STATUS, BUSY, FBV, FAULT, DIMW, DIMH) are in Machine/Flags.lean. -/
structure State where
  /-- The parameters of the hardware (R9): no part of the machine's state, carried with it (log 1). -/
  params : Params
  /-- The framebuffer `FB` and its held flag `FBV` in one: `none` when `FBV = 0`, for an unheld framebuffer has no
  contents that may be assumed (R22, R23, log 3). -/
  fb : Option Memory
  /-- The line buffer `LB` (R33, R55). -/
  lb : Memory
  /-- The asset space `ASSET` (R35, R53). -/
  asset : Memory
  /-- `SR.CAUSE` (R28). -/
  cause : BitVec 4
  /-- `SR.FCMD` (R29). -/
  fcmd : Cmd
  /-- `SR.RESULT` (R30). -/
  result : BitVec 16
  /-- The transport trace: the events emitted since reset, oldest first (R36). -/
  trace : List LineEvent
  /-- The events the display received before the last reset, which reset does not recall (R38, R222, log 8). -/
  delivered : List LineEvent
  /-- What the host does from here on, next action first; its command words before the
  next `rst` are the rest of the program `P` (R21, logs 7 and 18). -/
  script : List HostAction
  /-- `pc` of the host's notation: the number of command words issued since reset (R21). -/
  pc : Nat
  /-- The environment's answers `alloc_ok` to the coming FBINITs, next first (R161, log 2). -/
  allocIn : List Bool
  /-- How many free values have been drawn: the model's own counter (log 16). -/
  draws : Nat
  /-- What the host has read on the status port: register numbers and values, oldest first (R25, log 9). -/
  reads : List (Nat × BitVec 64)
  deriving DecidableEq, Repr

/-- The state after reset (R38): status registers zero, no framebuffer held, the line buffer unspecified (draw 0), the
parameters and the asset bytes those of the implementation, and a host that has nothing to issue yet (log 7). -/
def State.reset : State where
  params := Config.params
  fb := none
  lb := Memory.tabulate (2 * Config.params.H) (Config.lineByte 0)
  asset := Memory.tabulate Config.params.assetSize Config.assetByte
  cause := 0
  fcmd := 0
  result := 0
  trace := []
  delivered := []
  script := []
  pc := 0
  allocIn := []
  draws := 1
  reads := []

end Sys2Proof.Machine
end

