-- ==== Sys2Proof/Machine/Ops.lean ====
section
/-! DEFINITION. The named operations over the state: memory accesses, taking a fault and leaving it by reset, the draw of
`alloc_ok`, the acceptance of a command (spec/20_memory.md R51 to R60, spec/60_exceptions.md R190 to R204). -/
namespace Sys2Proof.Machine

/-- The code of a fault cause (R190). -/
def Cause.code : Cause → BitVec 4
  | .illegalCommand => 1
  | .allocationFailure => 2
  | .fbAbsent => 3
  | .fbHeld => 4
  | .outOfBounds => 5
  | .assetOutOfRange => 6
  | .iconTruncated => 7
  | .illegalScale => 9

/-- The linear address of pixel `(x, y)`: `x*H + y` (R51). -/
def pix (p : Params) (x y : Nat) : Nat := x * p.H + y

/-- The framebuffer takes contents `m` and is held, or is released by `none` (R23). -/
def State.setFb (s : State) (m : Option Memory) : State := { s with fb := m }

/-- `SR.RESULT <- v` (R30). -/
def State.setResult (s : State) (v : BitVec 16) : State := { s with result := v }

/-- The byte of the held framebuffer at linear address `k`; no value while it is not held (R22, R23). -/
def State.cell (s : State) (k : Nat) : Option Byte := s.fb.map fun m => Memory.read m k

/-- `AssetRead(addr)` (R53). The commands test their whole extent first, so it is evaluated below `ASSET_SIZE` only. -/
def State.assetRead (s : State) (addr : Nat) : Byte := Memory.read s.asset addr

/-- Fault entry, `raise F(cmd)` (R200): CAUSE and FCMD are written and nothing else changes. -/
def raise (f : Cause) (cmd : Cmd) (s : State) : State := { s with cause := f.code, fcmd := cmd }

/-- Acceptance of a command word (R198): while CAUSE is not 0 the command is discarded and no state changes; otherwise it
is executed. Decoding has no effect, so that a discarded word is not decoded cannot be told apart from this (log 10). -/
def accept (s : State) (executed : State) : State := if s.cause = 0 then executed else s

/-- The framebuffer check of a command that needs one (R199 step 2): FbAbsent when none is held (R193). -/
def whenHeld (cmd : Cmd) (s : State) (go : Memory → State) : State :=
  match s.fb with
  | none => raise .fbAbsent cmd s
  | some m => go m

/-- One check of R199: the fault `f` when the condition does not hold, else what follows. -/
def check (ok : Prop) [Decidable ok] (f : Cause) (cmd : Cmd) (s : State) (next : State) : State :=
  if ok then next else raise f cmd s

/-- `draw alloc_ok` (R161): the next answer the environment's list holds, or where it holds none a free value (log 2). -/
def drawAlloc (s : State) : Bool × State :=
  match s.allocIn with
  | b :: rest => (b, { s with allocIn := rest })
  | [] => (Config.allocOk s.draws, { s with draws := s.draws + 1 })

/-- `emit write_line(i, bytes)` for each event of a list, in its order (R183). -/
def emit (es : List LineEvent) (s : State) : State := { s with trace := s.trace ++ es }

/-- Reset, the only way out of the faulted condition (R204, R220): the values of R38, the line buffer unspecified anew, a
fresh trace with the earlier events not recalled (R222); parameters and assets stay. What the host and the environment
have still to do, and what the host has read, is not the SRB's. -/
def afterReset (s : State) : State :=
  { s with
    fb := none
    lb := Memory.tabulate (2 * s.params.H) (Config.lineByte s.draws)
    cause := 0
    fcmd := 0
    result := 0
    trace := []
    delivered := s.delivered ++ s.trace
    pc := 0
    draws := s.draws + 1 }

end Sys2Proof.Machine
end

