-- ==== Sys2Proof/Machine/Operands.lean ====
section
/-! DEFINITION. Operand forms: the extent and bounds tests of spec/60_exceptions.md R196, R197, the pixel addresses a
command names, and the bits of an asset byte (spec/20_memory.md R51, R58). Every operand is read as it stands, unsigned, and
every sum and product is exact (spec/30_encoding.md R82). -/
namespace Sys2Proof.Machine

/-- The rectangle of `w` by `h` pixels with origin `(x, y)` lies inside the framebuffer (R197). -/
abbrev rectInside (p : Params) (x y w h : Nat) : Prop := x + w ≤ p.W ∧ y + h ≤ p.H

/-- The pixel `(x, y)` lies inside the framebuffer (R197, FBRD). -/
abbrev pixelInside (p : Params) (x y : Nat) : Prop := x < p.W ∧ y < p.H

/-- The rows `[y, y + h)` lie inside the framebuffer (R197, FILL). -/
abbrev rowsInside (p : Params) (y h : Nat) : Prop := y + h ≤ p.H

/-- The `n` asset bytes from `a` lie in the asset space (R196). -/
abbrev assetInside (p : Params) (a n : Nat) : Prop := a + n ≤ p.assetSize

/-- The scale is in `1 .. SMAX` (R195, R9). -/
abbrev scaleLegal (sc : Byte) : Prop := 1 ≤ sc.toNat ∧ sc.toNat ≤ Config.smax

/-- The pixels of a `w` by `h` rectangle relative to its origin, column by column, each from the top (R131). -/
def columnMajor (w h : Nat) : List (Nat × Nat) :=
  (List.range w).flatMap fun i => (List.range h).map fun j => (i, j)

/-- The addresses of the `w` by `h` rectangle at `(x, y)`, column by column (R51). -/
def rectCells (p : Params) (x y w h : Nat) : List Nat :=
  (columnMajor w h).map fun d => pix p (x + d.1) (y + d.2)

/-- The addresses of the `sc` by `sc` block of source pixel `(i, j)` of a drawing with origin `(x, y)` (R121, R139). -/
def blockCells (p : Params) (x y sc i j : Nat) : List Nat := rectCells p (x + i * sc) (y + j * sc) sc sc

/-- The addresses of rows `[y, y + h)` of every column (R163). -/
def barCells (p : Params) (y h : Nat) : List Nat := rectCells p 0 y p.W h

/-- Bit `row` of a glyph byte: row 0 is the top row (R58, R120). -/
def glyphBit (g : Byte) (row : Nat) : Bool := g.getLsbD row

/-- The byte a drawing command stores: `zext_8(c)` (R160). -/
def paint (c : Colour) : Byte := c.setWidth 8

end Sys2Proof.Machine
end

