-- ==== Sys2Proof/Machine/Framebuffer.lean ====
section
/-! DEFINITION. FBINIT, FBFREE, FILL and FBRD (spec/44_framebuffer.md R160 to R168). -/
namespace Sys2Proof.Machine

/-- The zeroed framebuffer: every cell 0x00 (R161). -/
def zeroed : Memory := []

/-- `FBINIT` (R161): FbHeld, then the draw of `alloc_ok`, then AllocationFailure, else every cell is zero and FBV set. -/
def execFbinit (s : State) : Host.Outcome State Fault Refusal :=
  .next <| accept s <| check (s.fb = none) .fbHeld (encode .fbinit) s <|
    match drawAlloc s with
    | (ok, s') => check (ok = true) .allocationFailure (encode .fbinit) s' (s'.setFb (some zeroed))

/-- `FBFREE` (R162): FBV is cleared and the contents become unspecified. -/
def execFbfree (s : State) : Host.Outcome State Fault Refusal :=
  .next <| accept s <| whenHeld (encode .fbfree) s fun _ => s.setFb none

/-- `FILL y, h, c` (R163): every pixel of every column at rows `[y, y + h)` becomes `c`. -/
def execFill (y h : Half) (c : Colour) (s : State) : Host.Outcome State Fault Refusal :=
  .next <| accept s <| whenHeld (encode (.fill y h c)) s fun m =>
    check (rowsInside s.params y.toNat h.toNat) .outOfBounds (encode (.fill y h c)) s <|
      s.setFb (some (Memory.fill m (barCells s.params y.toNat h.toNat) (paint c)))

/-- `FBRD x, y` (R168): RESULT takes the cell of pixel `(x, y)`, zero-extended. -/
def execFbrd (x y : Half) (s : State) : Host.Outcome State Fault Refusal :=
  .next <| accept s <| whenHeld (encode (.fbrd x y)) s fun m =>
    check (pixelInside s.params x.toNat y.toNat) .outOfBounds (encode (.fbrd x y)) s <|
      s.setResult ((Memory.read m (pix s.params x.toNat y.toNat)).setWidth 16)

end Sys2Proof.Machine
end

