-- ==== Sys2Proof/Machine/Glyph.lean ====
section
/-! DEFINITION. The glyph blitter and GLYPH (spec/41_glyph.md R120 to R125). -/
namespace Sys2Proof.Machine

/-- The cells a GLYPH paints, in the order of R121's loops: for each of the 6 columns and 8 rows whose source bit is set,
the block of that source pixel. -/
def glyphCells (s : State) (x y sc a : Nat) : List Nat :=
  (columnMajor 6 8).flatMap fun d =>
    if glyphBit (s.assetRead (a + d.1)) d.2 then blockCells s.params x y sc d.1 d.2 else []

/-- `GLYPH x, y, c, s, a` (R121), its checks in the order of R122. -/
def execGlyph (x y : Half) (c : Colour) (sc : Byte) (a : Half) (s : State) : Host.Outcome State Fault Refusal :=
  .next <| accept s <| whenHeld (encode (.glyph x y c sc a)) s fun m =>
    check (scaleLegal sc) .illegalScale (encode (.glyph x y c sc a)) s <|
    check (assetInside s.params a.toNat 6) .assetOutOfRange (encode (.glyph x y c sc a)) s <|
    check (rectInside s.params x.toNat y.toNat (6 * sc.toNat) (8 * sc.toNat)) .outOfBounds (encode (.glyph x y c sc a)) s <|
      s.setFb (some (Memory.fill m (glyphCells s x.toNat y.toNat sc.toNat a.toNat) (paint c)))

end Sys2Proof.Machine
end

