-- ==== Sys2Proof/Machine/Icon.lean ====
section
/-! DEFINITION. The run-length icon decoder, the icon blitter and ICON (spec/42_icon.md R130 to R143). -/
namespace Sys2Proof.Machine

/-- The working registers of the decoder, at the widths of R32. They live during one ICON only: each ICON starts them
(R134) and drops them (R139), so they are no field of State (log 12). -/
structure Decoder where
  /-- One-hot selector of the next literal bit; 0x80 means not inside a literal byte. -/
  mask : BitVec 8
  /-- Bits still owed by the current run. -/
  runLength : BitVec 6
  /-- The value the current run repeats. -/
  runBit : Bool
  /-- The most recent stream byte. -/
  lastByte : Byte
  /-- Stream bytes that may still be read. -/
  budget : BitVec 8
  /-- The stream read address `p`. -/
  p : BitVec 17
  deriving DecidableEq, Repr

/-- The start of decoding an icon whose header at `a` declares `len` stream bytes (R134). -/
def decoderStart (a : Half) (len : Byte) : Decoder where
  mask := 0x80
  runLength := 0
  runBit := false
  lastByte := 0x00
  budget := len
  p := a.setWidth 17 + 3

/-- Reading one stream byte (R135, the third case): a run marker loads the run, a literal byte sets the mask (R133). -/
def readStreamByte (s : State) (d : Decoder) : Decoder :=
  let b := s.assetRead d.p.toNat
  let d := { d with lastByte := b, p := d.p + 1, budget := d.budget - 1 }
  if b.getLsbD 7 then { d with runLength := b.extractLsb' 0 6, runBit := b.getLsbD 6 } else { d with mask := 0x01 }

/-- `NextBit()` (R135): the next decoded bit and the registers after it, `none` for IconTruncated (R141). Each pass of the
loop returns a bit or uses up one byte of budget (R143 f), so `passes` above the budget is enough. -/
def nextBitIn (s : State) : (passes : Nat) → Decoder → Option (Bool × Decoder)
  | 0, _ => none
  | passes + 1, d =>
    if d.mask ≠ 0x80 then some (d.lastByte &&& d.mask != 0, { d with mask := d.mask <<< 1 })
    else if d.runLength ≠ 0 then some (d.runBit, { d with runLength := d.runLength - 1 })
    else if d.budget = 0 then none
    else nextBitIn s passes (readStreamByte s d)

/-- `NextBit()` with passes enough for the budget left (R135, R143 f). -/
def nextBit (s : State) (d : Decoder) : Option (Bool × Decoder) := nextBitIn s (d.budget.toNat + 1) d

/-- What the decode and blit of an icon leaves: the framebuffer, and whether a needed byte was missing (R141). -/
structure Blit where
  mem : Memory
  truncated : Bool
  deriving DecidableEq, Repr

/-- The decode and blit loop of R139 over the source pixels still to come: a 1 bit paints the pixel's block, a 0 bit
leaves the framebuffer, a missing byte ends the loop with what is painted so far (R141). -/
def blitPixels (s : State) (x y sc : Nat) (v : Byte) : List (Nat × Nat) → Decoder → Memory → Blit
  | [], _, m => ⟨m, false⟩
  | (i, j) :: rest, d, m =>
    match nextBit s d with
    | none => ⟨m, true⟩
    | some (true, d') => blitPixels s x y sc v rest d' (Memory.fill m (blockCells s.params x y sc i j) v)
    | some (false, d') => blitPixels s x y sc v rest d' m

/-- `ICON x, y, c, s, a` (R139), its checks in the order of R140. The header bytes `w`, `h`, `len` at `a`, `a + 1`, `a + 2`
(R130) are read after the header's extent is tested. -/
def execIcon (x y : Half) (c : Colour) (sc : Byte) (a : Half) (s : State) : Host.Outcome State Fault Refusal :=
  .next <| accept s <| whenHeld (encode (.icon x y c sc a)) s fun m =>
    check (scaleLegal sc) .illegalScale (encode (.icon x y c sc a)) s <|
    check (assetInside s.params a.toNat 3) .assetOutOfRange (encode (.icon x y c sc a)) s <|
      let w := s.assetRead a.toNat
      let h := s.assetRead (a.toNat + 1)
      let len := s.assetRead (a.toNat + 2)
      check (assetInside s.params a.toNat (3 + len.toNat)) .assetOutOfRange (encode (.icon x y c sc a)) s <|
      check (rectInside s.params x.toNat y.toNat (w.toNat * sc.toNat) (h.toNat * sc.toNat)) .outOfBounds
          (encode (.icon x y c sc a)) s <|
        let b := blitPixels s x.toNat y.toNat sc.toNat (paint c) (columnMajor w.toNat h.toNat) (decoderStart a len) m
        check (b.truncated = false) .iconTruncated (encode (.icon x y c sc a)) (s.setFb (some b.mem)) (s.setFb (some b.mem))

/-- `expand(b)`: the bits one stream byte yields, in the closed form of R138. -/
def expandByte (b : Byte) : List Bool :=
  if b.getLsbD 7 then List.replicate (b.extractLsb' 0 6).toNat (b.getLsbD 6)
  else (List.range 7).map fun k => b.getLsbD k

/-- `E`: the bits of a stream, in the closed form of R138. No meaning calls it; statements compare the decoder with it. -/
def expand (bs : List Byte) : List Bool := bs.flatMap expandByte

/-- The `len` stream bytes of an icon whose header is at `a` (R130). -/
def iconStream (s : State) (a len : Nat) : List Byte := (List.range len).map fun k => s.assetRead (a + 3 + k)

end Sys2Proof.Machine
end

