-- ==== Sys2Proof/Machine/Palette.lean ====
section
/-! DEFINITION. The palette lookup and PALQ (spec/40_palette.md R110 to R113). -/
namespace Sys2Proof.Machine

/-- `color_of(i) = PAL[i]` for a 4-bit index (R110, R113). -/
def color (p : Params) (i : Colour) : Rgb565 := p.palette[i.toNat]'i.isLt

/-- `PALQ c` (R112). It needs no framebuffer and takes no fault. -/
def execPalq (c : Colour) (s : State) : Host.Outcome State Fault Refusal :=
  .next <| accept s <| s.setResult (color s.params c)

end Sys2Proof.Machine
end

