-- ==== Sys2Proof/Machine/Scanout.lean ====
section
/-! DEFINITION. The RGB565 converter and SCANOUT (spec/45_scanout.md R180 to R187). -/
namespace Sys2Proof.Machine

/-- The pixel of a cell byte: `PAL[b & 0x0F]` (R181). -/
def pixelOf (p : Params) (b : Byte) : Rgb565 := color p ((b &&& 0x0F).setWidth 4)

/-- A pixel as two bytes, high byte first (R57). -/
def bigEndian (v : Rgb565) : List Byte := [v.extractLsb' 8 8, v.extractLsb' 0 8]

/-- The `2*H` bytes of column `x` (R182), pixel `y = 0` first. -/
def lineBytes (p : Params) (m : Memory) (x : Nat) : List Byte :=
  (List.range p.H).flatMap fun y => bigEndian (pixelOf p (Memory.read m (pix p x y)))

/-- The events of one SCANOUT: one line per column, in increasing line index (R184, R185). -/
def scanLines (p : Params) (m : Memory) : List LineEvent :=
  (List.range p.W).map fun i => ⟨i, lineBytes p m i⟩

/-- The line buffer after some lines: every byte of it is rewritten for every line (R182). That it still holds the last one
when the command has completed is the model's choice (DESIGN CHOICE, log 4): R33 leaves it any value, unobservable. -/
def bufferAfter (lines : List LineEvent) (lb : Memory) : Memory :=
  match lines.getLast? with
  | none => lb
  | some e => Memory.tabulate e.bytes.length fun k => e.bytes.getD k Memory.unlisted

/-- `SCANOUT` (R184): `W` events are emitted; FB, FBV and RESULT stay. -/
def execScanout (s : State) : Host.Outcome State Fault Refusal :=
  .next <| accept s <| whenHeld (encode .scanout) s fun m =>
    { emit (scanLines s.params m) s with lb := bufferAfter (scanLines s.params m) s.lb }

end Sys2Proof.Machine
end

