-- ==== Sys2Proof/Machine/Dispatch.lean ====
section
/-! DEFINITION. One arm per command (spec/30_encoding.md R83). -/
namespace Sys2Proof.Machine

def exec (i : Instr) (s : State) : Host.Outcome State Fault Refusal :=
  match i with
  | .fbinit => Sys2Proof.Machine.execFbinit s
  | .fbfree => Sys2Proof.Machine.execFbfree s
  | .fill y h c => Sys2Proof.Machine.execFill y h c s
  | .glyph x y c sc a => Sys2Proof.Machine.execGlyph x y c sc a s
  | .icon x y c sc a => Sys2Proof.Machine.execIcon x y c sc a s
  | .scanout => Sys2Proof.Machine.execScanout s
  | .fbrd x y => Sys2Proof.Machine.execFbrd x y s
  | .palq c => Sys2Proof.Machine.execPalq c s

end Sys2Proof.Machine
end

