-- ==== Sys2Proof/Machine/Flags.lean ====
section
/-! DEFINITION. The status flags and the status port (spec/10_state.md R23 to R31). -/
namespace Sys2Proof.Machine

/-- `FBV`: a framebuffer is held (R23). -/
def State.fbv (s : State) : Bool := s.fb.isSome

/-- `FAULT`: 1 exactly when `SR.CAUSE` is not 0 (R24). -/
def State.faultFlag (s : State) : Bool := s.cause != 0

/-- `BUSY`: hardwired 0, as R27 lets a command-atomic model do (log 5). -/
def State.busy (_ : State) : Bool := false

/-- STATUS: bit 0 BUSY, bit 1 FBV, bit 2 FAULT, bits 7:3 zero (R26, R27). -/
def State.status (s : State) : BitVec 8 :=
  0#5 ++ BitVec.ofBool s.faultFlag ++ BitVec.ofBool s.fbv ++ BitVec.ofBool s.busy

/-- The status port: register `n` of R26, zero-extended to the widest of them (log 9); 6 and above read as zero (R25). -/
def State.statusRegister (s : State) (n : Nat) : BitVec 64 :=
  match n with
  | 0 => s.status.setWidth 64
  | 1 => s.cause.setWidth 64
  | 2 => s.fcmd
  | 3 => s.result.setWidth 64
  | 4 => s.params.dimW.setWidth 64
  | 5 => s.params.dimH.setWidth 64
  | _ => 0

end Sys2Proof.Machine
end

