-- ==== Sys2Proof/Machine/Port.lean ====
section
/-! DEFINITION. The ports of the SRB: what each action of the host does (spec/70_reset_and_hazards.md R220, R221, R228 to
R233). -/
namespace Sys2Proof.Machine

/-- A word that spells no command takes IllegalCommand, unless the machine is faulted and discards it (R191, R198). -/
def acceptIllegal (w : Cmd) (s : State) : Host.Outcome State Fault Refusal :=
  .next <| accept s <| raise .illegalCommand w s

/-- A command word on the command port: decoded and executed, or illegal (R88, R199 step 1). -/
def issue (w : Cmd) (s : State) : Host.Outcome State Fault Refusal :=
  match decode w with
  | .ok i => exec i s
  | .error _ => acceptIllegal w s

/-- The host goes on to its next action. -/
def advance (s : State) (rest : List HostAction) : State := { s with script := rest }

/-- The host has issued one more command word: `pc` becomes `pc + 1` whether it completes, faults or is discarded (R21). -/
def countWord (s : State) : State := { s with pc := s.pc + 1 }

/-- What a command abandoned by `rst` has done that can still be observed (R221): for a SCANOUT in progress, its first
`k` events, each whole; for every other command nothing (log 8). -/
def abandoned (w : Cmd) (k : Nat) (s : State) : State :=
  match decode w with
  | .ok .scanout => accept s <|
      match s.fb with
      | none => s
      | some m => emit ((scanLines s.params m).take k) s
  | _ => s

/-- The host changes one asset byte between commands (R63); an address outside the asset space does not exist (R53). -/
def rewriteAsset (addr : Nat) (byte : Byte) (s : State) : Host.Outcome State Fault Refusal :=
  if addr < s.params.assetSize then .next { s with asset := Memory.write s.asset addr byte }
  else .fault .assetAddressAbsent

/-- The host reads a status register: no side effect on the SRB (R25), the value goes to the host (log 9). -/
def readStatusPort (n : Nat) (s : State) : State := { s with reads := s.reads ++ [(n, s.statusRegister n)] }

/-- One action of the host (R233). -/
def perform (act : HostAction) (s : State) : Host.Outcome State Fault Refusal :=
  match act with
  | .command w => issue w (countWord s)
  | .reset => .next (afterReset s)
  | .resetDuring w k => .next (afterReset (abandoned w k s))
  | .writeAsset addr byte => rewriteAsset addr byte s
  | .readStatus n => .next (readStatusPort n s)

/-- The SRB and its host: the host's next action, or an idle machine that stays as it is (log 7). -/
def runNext (s : State) : Host.Outcome State Fault Refusal :=
  match s.script with
  | [] => .next s
  | act :: rest => perform act (advance s rest)

/-- Put a command word where the next step takes the host's next action (log 7). -/
def placeWord (s : State) (w : Cmd) : State := { s with script := .command w :: s.script }

end Sys2Proof.Machine
end

