-- ==== Sys2Proof/Machine/Step.lean ====
section
/-! DEFINITION. One step: one action of the host, a command being one atomic transition (spec/20_memory.md R60). -/
namespace Sys2Proof.Machine

/-- One step of the machine. -/
def step (s : State) : Host.Outcome State Fault Refusal := runNext s

/-- `s` with the word `w` as the host's next command, so that the next step issues exactly it (log 7). -/
def State.withFetchWord (s : State) (_nbits w : Nat) : State := placeWord s (BitVec.ofNat 64 w)

end Sys2Proof.Machine
end

