-- ==== Sys2Proof/Machine/TextLayout.lean ====
section
/-! DEFINITION. Text Layout, host software: CHAR and TEXT as lists of GLYPH lines (spec/43_text_layout.md R150 to R157). It
makes command lines before a run and is no part of a step (R6). -/
namespace Sys2Proof.Machine

/-- `m(ch)` (R151): printable codes as they are, every other code as the code 0x3F of the question mark (log 13). -/
def mapChar (ch : Byte) : Nat := if 0x20 ≤ ch.toNat ∧ ch.toNat ≤ 0x7E then ch.toNat else 0x3F

/-- `CHAR x, y, c, s, ch` (R152): one GLYPH of the mapped character's six bytes. -/
def charLine (p : Params) (x y c s : Nat) (ch : Byte) : AsmLine :=
  .glyph x y c s (p.fontBase + 6 * (mapChar ch - 0x20))

/-- The cursor advance `adv(s)` (R153). -/
def cursorAdvance (s : Nat) : Nat := 5 * s + 1

/-- The newline code (R155, log 13). -/
def newline : Byte := 0x0A

/-- The loop of R156 from cursor `(cx, cy)`, for a string that starts at column `x`. -/
def layoutFrom (p : Params) (x c s : Nat) : (cx cy : Nat) → List Byte → List AsmLine
  | _, _, [] => []
  | cx, cy, ch :: t =>
    if s = 1 ∧ ch = newline then layoutFrom p x c s x (cy + 10) t
    else if 2 ≤ s ∧ p.W < cx + 6 * s then []
    else charLine p cx cy c s ch :: layoutFrom p x c s (cx + cursorAdvance s) cy t

/-- `TEXT x, y, c, s, t` (R156); with `s = 0` it is not defined. -/
def layoutText (p : Params) (x y c s : Nat) (t : List Byte) : Option (List AsmLine) :=
  if s = 0 then none else some (layoutFrom p x c s x y t)

end Sys2Proof.Machine
end

