-- ==== Sys2Proof/Machine/Assembler.lean ====
section
/-! DEFINITION. The assembler, host software (spec/30_encoding.md R90, R91): lines of assembly to command words, and a
program as the host's actions (spec/10_state.md R21). -/
namespace Sys2Proof.Machine

/-- A line that is no pseudo-instruction as a command (R90): an operand that does not fit its field is an error, never
truncated. -/
def assembleCommand (l : AsmLine) : Option Instr :=
  if l.fits then
    match l with
    | .fbinit => some .fbinit
    | .fbfree => some .fbfree
    | .fill y h c => some (.fill (BitVec.ofNat 16 y) (BitVec.ofNat 16 h) (BitVec.ofNat 4 c))
    | .glyph x y c s a =>
      some (.glyph (BitVec.ofNat 16 x) (BitVec.ofNat 16 y) (BitVec.ofNat 4 c) (BitVec.ofNat 8 s) (BitVec.ofNat 16 a))
    | .icon x y c s a =>
      some (.icon (BitVec.ofNat 16 x) (BitVec.ofNat 16 y) (BitVec.ofNat 4 c) (BitVec.ofNat 8 s) (BitVec.ofNat 16 a))
    | .scanout => some .scanout
    | .fbrd x y => some (.fbrd (BitVec.ofNat 16 x) (BitVec.ofNat 16 y))
    | .palq c => some (.palq (BitVec.ofNat 4 c))
    | .char _ _ _ _ _ => none
    | .text _ _ _ _ _ => none
  else none

/-- The line of assembly of a command, in the operand order of R90. -/
def lineOf : Instr → AsmLine
  | .fbinit => .fbinit
  | .fbfree => .fbfree
  | .fill y h c => .fill y.toNat h.toNat c.toNat
  | .glyph x y c sc a => .glyph x.toNat y.toNat c.toNat sc.toNat a.toNat
  | .icon x y c sc a => .icon x.toNat y.toNat c.toNat sc.toNat a.toNat
  | .scanout => .scanout
  | .fbrd x y => .fbrd x.toNat y.toNat
  | .palq c => .palq c.toNat

/-- A line with its pseudo-instruction expanded (R91). -/
def expandLine (p : Params) (l : AsmLine) : Option (List AsmLine) :=
  match l with
  | .char x y c s ch => some [charLine p x y c s ch]
  | .text x y c s t => layoutText p x y c s t
  | l => some [l]

/-- A line as the commands it stands for; `none` is the assembly-time error (R90). -/
def assembleLine (p : Params) (l : AsmLine) : Option (List Instr) :=
  (expandLine p l).bind fun ls => ls.mapM assembleCommand

/-- A program as its commands, in order (R90: one command a line). -/
def assemble (p : Params) (ls : List AsmLine) : Option (List Instr) :=
  (ls.mapM (assembleLine p)).map List.flatten

/-- The host with a program of command words to issue (R21): how a program comes to run from reset (log 7). -/
def loadProgram (ws : List Cmd) (s : State) : State := { s with script := ws.map .command }

end Sys2Proof.Machine
end

