-- ==== Sys2Proof/Machine/Composer.lean ====
section
/-! DEFINITION. The Composer, host software: the fixed order in which one screen is drawn (spec/70_reset_and_hazards.md R226).
The spec gives none of its numbers (D31, U20), so every one of them is an argument (log 14). -/
namespace Sys2Proof.Machine

/-- A bar of step 2. -/
structure Bar where
  y : Nat
  h : Nat
  c : Nat
  deriving DecidableEq, Repr

/-- A string placed on the screen (steps 3 to 5). -/
structure Label where
  x : Nat
  y : Nat
  c : Nat
  s : Nat
  text : List Byte
  deriving DecidableEq, Repr

/-- An icon placed on the screen (step 6). -/
structure Picture where
  x : Nat
  y : Nat
  c : Nat
  s : Nat
  a : Nat
  deriving DecidableEq, Repr

/-- Everything the Composer draws on one screen. -/
structure Screen where
  topBar : Bar
  bodyBar : Bar
  footerBar : Bar
  title : Label
  version : Label
  hint : Label
  sourceName : Label
  volumeLabel : Label
  fileIcon : Picture
  arrowIcon : Picture
  driveIcon : Picture
  deriving DecidableEq, Repr

/-- A bar as a command line. -/
def Bar.line (b : Bar) : AsmLine := .fill b.y b.h b.c

/-- A string as a command line. -/
def Label.line (l : Label) : AsmLine := .text l.x l.y l.c l.s l.text

/-- An icon as a command line. -/
def Picture.line (i : Picture) : AsmLine := .icon i.x i.y i.c i.s i.a

/-- The eight steps of R226 for one screen. -/
def composeScreen (v : Screen) : List AsmLine :=
  [.fbinit,
   v.topBar.line, v.bodyBar.line, v.footerBar.line,
   v.title.line, v.version.line,
   v.hint.line,
   v.sourceName.line, v.volumeLabel.line,
   v.fileIcon.line, v.arrowIcon.line, v.driveIcon.line,
   .scanout,
   .fbfree]

end Sys2Proof.Machine
end

