-- ==== Sys2Proof/Machine/Run.lean ====
section
/-! DEFINITION. The run of a program and its end (spec/10_state.md R21, spec/70_reset_and_hazards.md R227). -/
namespace Sys2Proof.Machine

/-- What a run can show from outside (R227): the transport trace and the values of STATUS, CAUSE, FCMD and RESULT. -/
structure RunResult where
  trace : List LineEvent
  status : BitVec 8
  cause : BitVec 4
  fcmd : Cmd
  result : BitVec 16
  deriving DecidableEq, Repr

/-- What can be seen of the state, the final values of the run when it has ended (R227). -/
def State.runResult (s : State) : RunResult := ⟨s.trace, s.status, s.cause, s.fcmd, s.result⟩

/-- The host action asserts `rst`. -/
def assertsReset : HostAction → Bool
  | .command _ => false
  | .reset => true
  | .resetDuring _ _ => true
  | .writeAsset _ _ => false
  | .readStatus _ => false

/-- The command words the host issues before it next asserts `rst`, a word that `rst` abandons among them (R21, R221). -/
def wordsBeforeReset : List HostAction → List Cmd
  | [] => []
  | .command w :: rest => w :: wordsBeforeReset rest
  | .reset :: _ => []
  | .resetDuring w _ :: _ => [w]
  | .writeAsset _ _ :: rest => wordsBeforeReset rest
  | .readStatus _ :: rest => wordsBeforeReset rest

/-- The machine is in a run of `P` (R21): what the host issues before it next asserts `rst` are the words of `P` from index
`pc` on, in order, all of them or the first ones. Other actions of the host (R233) may stand between them. -/
abbrev State.follows (P : List Cmd) (s : State) : Prop := wordsBeforeReset s.script <+: P.drop s.pc

/-- The run of `P` has ended (R21, R227): every word of `P` has been issued since reset and, a command being one step, the
last has completed, faulted or been discarded. What the host does beside issuing words does not matter, and `rst`, which
sets `pc` to 0, starts the program anew (log 18). -/
abbrev State.ended (P : List Cmd) (s : State) : Prop := s.pc = P.length

/-- The run of `P` has ended, and ended successfully: CAUSE is 0 (R227). Between the end and the next `rst` CAUSE keeps its
value, for no word is left to issue. -/
abbrev State.endedSuccessfully (P : List Cmd) (s : State) : Prop := s.ended P ∧ s.cause = 0

end Sys2Proof.Machine
end

