-- ==== Sys2Proof/Safety.lean ====
section
/-! DEFINITION. What counts as a good state, in the terms the statements use. (The run of a program and
its end stand in Machine/Run.lean.) -/
namespace Sys2Proof.Machine

/-- The codes CAUSE can hold: 0 to 7 and 9 (R28). -/
abbrev legalCause (c : BitVec 4) : Prop := c.toNat ≤ 7 ∨ c.toNat = 9

/-- A held framebuffer: canonical, of `W*H` cells (R22), each cell's bits 7:4 zero (R160). -/
abbrev framebufferGood (p : Params) (m : Memory) : Prop :=
  Memory.wf m ∧ Memory.below m (p.W * p.H) ∧ ∀ q ∈ m, q.2.toNat < 16

/-- An event as R183 and R185 have it: a line index below `W` and `2*H` bytes. -/
abbrev eventGood (p : Params) (e : LineEvent) : Prop := e.index < p.W ∧ e.bytes.length = 2 * p.H

/-- The invariant of the machine: the ranges of the parameters (R9), the three memories in canonical form and inside their
spaces (R22, R50), a legal cause (R28), FCMD zero while CAUSE is zero (R29), and well-shaped events (R185). -/
abbrev State.Inv (s : State) : Prop :=
  s.params.Valid ∧
  (∀ m ∈ s.fb, framebufferGood s.params m) ∧
  (Memory.wf s.lb ∧ Memory.below s.lb (2 * s.params.H)) ∧
  (Memory.wf s.asset ∧ Memory.below s.asset s.params.assetSize) ∧
  legalCause s.cause ∧
  (s.cause = 0 → s.fcmd = 0) ∧
  (∀ e ∈ s.trace, eventGood s.params e) ∧
  (∀ e ∈ s.delivered, eventGood s.params e)

end Sys2Proof.Machine
end

