-- ==== Sys2Proof/Certificates/Slice0/Obligations.lean ====
section
/-! DEFINITION. The statements for the provers, from the numbered rules of spec/, and the closed forms they are stated in. -/
namespace Sys2Proof.Machine

/-- A GLYPH covers pixel `(X, Y)`: the pixel lies in the `6*sc` by `8*sc` rectangle at `(x, y)` and the source bit whose block
it lies in is set (R121, R125). -/
def glyphCovers (s : State) (x y sc a X Y : Nat) : Bool :=
  decide (x ≤ X ∧ X < x + 6 * sc ∧ y ≤ Y ∧ Y < y + 8 * sc) &&
    (s.assetRead (a + (X - x) / sc)).getLsbD ((Y - y) / sc)

/-- Source width, height and declared length of the icon at `a` (R130). -/
def iconWidth (s : State) (a : Nat) : Nat := (s.assetRead a).toNat

def iconHeight (s : State) (a : Nat) : Nat := (s.assetRead (a + 1)).toNat

def iconLength (s : State) (a : Nat) : Nat := (s.assetRead (a + 2)).toNat

/-- The decoded bits `E` of the icon at `a` (R138). -/
def iconBits (s : State) (a : Nat) : List Bool := expand (iconStream s a (iconLength s a))

/-- An ICON covers pixel `(X, Y)`: the pixel lies in the icon's rectangle and the bit of the source pixel whose block it
lies in was decoded and is 1 (R131, R138, R139). -/
def iconCovers (s : State) (x y sc a X Y : Nat) : Bool :=
  decide (x ≤ X ∧ X < x + iconWidth s a * sc ∧ y ≤ Y ∧ Y < y + iconHeight s a * sc) &&
    (iconBits s a).getD ((X - x) / sc * iconHeight s a + (Y - y) / sc) false

/-- The acceptance checks of ICON all pass, with `m` the held framebuffer (R139). -/
abbrev iconAccepted (s : State) (m : Memory) (x y sc a : Nat) : Prop :=
  s.cause = 0 ∧ s.fb = some m ∧ sc ≠ 0 ∧ a + 3 + iconLength s a ≤ s.params.assetSize ∧
    x + iconWidth s a * sc ≤ s.params.W ∧ y + iconHeight s a * sc ≤ s.params.H

/-- The next `n` bits `NextBit()` returns, fewer when it takes IconTruncated (R135). -/
def bitsFrom (s : State) : Nat → Decoder → List Bool
  | 0, _ => []
  | n + 1, d =>
    match nextBit s d with
    | none => []
    | some (b, d') => b :: bitsFrom s n d'

/-- The colour operand of a drawing command. -/
def drawColour : Instr → Option Colour
  | .fbinit => none
  | .fbfree => none
  | .fill _ _ c => some c
  | .glyph _ _ c _ _ => some c
  | .icon _ _ c _ _ => some c
  | .scanout => none
  | .fbrd _ _ => none
  | .palq _ => none

/-- The characters of a string that TEXT draws at scale 1: all but the newline, code 0x0A (R155, log 13). -/
def drawn (t : List Byte) : List Byte := t.filter fun ch => ch != 0x0A

/-- The column of the cursor at scale 1 after the characters `t`, for a string that starts at column `x` and a cursor that
stood at `cx`: six pixels for each character since the last newline, or since the start where there was none (R155, R156). -/
def cursorColumn (x cx : Nat) (t : List Byte) : Nat :=
  (if 0x0A ∈ t then x else cx) + 6 * (t.reverse.takeWhile fun ch => ch != 0x0A).length

/-- The row of the cursor at scale 1 after the characters `t`: ten pixels down for each newline (R155). -/
def cursorRow (cy : Nat) (t : List Byte) : Nat := cy + 10 * t.count 0x0A

end Sys2Proof.Machine

open Sys2Proof Sys2Proof.Machine

/-! Encoding. -/

/-- Decoding the word of a command gives the command, every operand at every value (R81, R83, R84). -/
def Obligations.DecodeOfEncode : Prop := ∀ i : Instr, decode (encode i) = .ok i

/-- A word that decodes is the word its command encodes to: no bit of it is dropped (R84, R85). -/
def Obligations.EncodeOfDecode : Prop := ∀ (w : Cmd) (i : Instr), decode w = .ok i → encode i = w

/-- R84: a word decodes exactly when it matches a row of the table, the row is that of the command decoded, and no word
matches two different rows. -/
def Obligations.DecodeAcceptsTableRows : Prop :=
  (∀ w : Cmd, wellFormedWord w = true ↔ ∃ i, decode w = .ok i) ∧
  (∀ (w : Cmd) (i : Instr), decode w = .ok i → (rowOf i).spells w = true) ∧
  (∀ (w : Cmd) (r r' : Row), r ∈ rows → r' ∈ rows → r.spells w = true → r'.spells w = true → r = r')

/-- R81: the value of a word is the sum of its fields at their places, and each field of a packed word is what was packed. -/
def Obligations.CommandWordFields : Prop :=
  (∀ w : Cmd, w.toNat = (fieldOp w).toNat * 2 ^ 60 + (fieldC w).toNat * 2 ^ 56 + (fieldS w).toNat * 2 ^ 48 +
    (fieldA w).toNat * 2 ^ 32 + (fieldY w).toNat * 2 ^ 16 + (fieldX w).toNat) ∧
  (∀ (op : BitVec 4) (c : Colour) (s : Byte) (a y x : Half),
    (pack op c s a y x).toNat =
      op.toNat * 2 ^ 60 + c.toNat * 2 ^ 56 + s.toNat * 2 ^ 48 + a.toNat * 2 ^ 32 + y.toNat * 2 ^ 16 + x.toNat)

/-- R92: the worked encodings, and the words the rule lists as illegal. -/
def Obligations.WorkedEncodings : Prop :=
  (encode .fbinit = 0x1000000000000000#64 ∧ encode .fbfree = 0x2000000000000000#64 ∧
   encode .scanout = 0x6000000000000000#64 ∧ encode (.fill 13 3 3) = 0x33000003000D0000#64 ∧
   encode (.glyph 2 4 1 1 0) = 0x4101000000040002#64 ∧ encode (.glyph 2 0 7 2 6) = 0x4702000600000002#64 ∧
   encode (.icon 1 1 6 1 0x20) = 0x5601002000010001#64 ∧ encode (.fbrd 3 8) = 0x7000000000080003#64 ∧
   encode (.palq 4) = 0x8400000000000000#64) ∧
  (decode 0x1000000000000000#64 = .ok .fbinit ∧ decode 0x2000000000000000#64 = .ok .fbfree ∧
   decode 0x6000000000000000#64 = .ok .scanout ∧ decode 0x33000003000D0000#64 = .ok (.fill 13 3 3) ∧
   decode 0x4101000000040002#64 = .ok (.glyph 2 4 1 1 0) ∧ decode 0x4702000600000002#64 = .ok (.glyph 2 0 7 2 6) ∧
   decode 0x5601002000010001#64 = .ok (.icon 1 1 6 1 0x20) ∧ decode 0x7000000000080003#64 = .ok (.fbrd 3 8) ∧
   decode 0x8400000000000000#64 = .ok (.palq 4)) ∧
  (decode 0x0000000000000000#64 = .error .reservedOpcode ∧ decode 0x9000000000000000#64 = .error .reservedOpcode ∧
   decode 0x1000000000000001#64 = .error .reservedField ∧ decode 0x3201000300000000#64 = .error .reservedField ∧
   decode 0x7100000000080003#64 = .error .reservedField ∧ decode 0x8400000000000001#64 = .error .reservedField)

/-- R86: a word whose opcode is 0x0 or 0x9 to 0xF spells no command, and a machine without a fault takes IllegalCommand on
it; the all-zero and the all-ones word are such words. -/
def Obligations.ReservedOpcodesAreIllegal : Prop :=
  (∀ w : Cmd, ((fieldOp w).toNat = 0 ∨ 9 ≤ (fieldOp w).toNat) → (∀ i, decode w ≠ .ok i) ∧
    ∀ s : State, s.cause = 0 → issue w s = .next { s with cause := 1, fcmd := w }) ∧
  ∀ s : State, s.cause = 0 →
    issue 0x0000000000000000#64 s = .next { s with cause := 1, fcmd := 0x0000000000000000#64 } ∧
    issue 0xFFFFFFFFFFFFFFFF#64 s = .next { s with cause := 1, fcmd := 0xFFFFFFFFFFFFFFFF#64 }

/-- R191: a word that matches no row takes IllegalCommand, whether or not a framebuffer is held, and only CAUSE and FCMD
change. So does the step that issues it, which takes the word off the host's script (log 7) and counts it (R21). -/
def Obligations.UnspelledWordIsIllegal : Prop :=
  ∀ (w : Cmd) (s : State), wellFormedWord w = false → s.cause = 0 →
    issue w s = .next { s with cause := 1, fcmd := w } ∧
    ∀ rest, s.script = .command w :: rest →
      step s = .next { s with script := rest, pc := s.pc + 1, cause := 1, fcmd := w }

/-! The step. -/

/-- When the host's next action is a word that decodes, the step executes the command, after taking the action off the
script and counting the word (R21, R60). -/
def Obligations.StepRunsDecodedCommand : Prop :=
  ∀ (s : State) (w : Cmd) (rest : List HostAction) (i : Instr),
    s.script = .command w :: rest → decode w = .ok i →
      step s = exec i { s with script := rest, pc := s.pc + 1 }

/-- Every command answers a next state in every state: a fault of the SRB is a next state (R200, R232, R233). -/
def Obligations.CommandsAlwaysComplete : Prop := ∀ (i : Instr) (s : State), ∃ t, exec i s = .next t

/-- A host with nothing to issue leaves the machine as it is: the model's choice, log 7. -/
def Obligations.IdleMachineStays : Prop := ∀ s : State, s.script = [] → step s = .next s

/-- R198: a faulted machine discards every word, legal or not. -/
def Obligations.FaultedMachineDiscards : Prop :=
  ∀ (s : State) (w : Cmd) (rest : List HostAction), s.script = .command w :: rest → s.cause ≠ 0 →
    step s = .next { s with script := rest, pc := s.pc + 1 }

/-- Once CAUSE is not 0, no step without `rst` changes CAUSE, FCMD, RESULT, the framebuffer, the line buffer or the trace
(R28, R29, R186, R204). -/
def Obligations.FaultedUntilReset : Prop :=
  ∀ s t : State, s.cause ≠ 0 → (∀ act rest, s.script = act :: rest → assertsReset act = false) → step s = .next t →
    t.cause = s.cause ∧ t.fcmd = s.fcmd ∧ t.result = s.result ∧ t.fb = s.fb ∧ t.lb = s.lb ∧ t.trace = s.trace ∧
      t.delivered = s.delivered

/-- No command writes a parameter, the palette, the asset space, the host's side or what was delivered (R34, R35, R95). -/
def Obligations.CommandsKeepConstants : Prop :=
  ∀ (i : Instr) (s t : State), exec i s = .next t →
    t.params = s.params ∧ t.asset = s.asset ∧ t.script = s.script ∧ t.pc = s.pc ∧ t.delivered = s.delivered ∧
      t.reads = s.reads

/-- R31: DIMW and DIMH read `W` and `H`, and no step changes them. -/
def Obligations.DimensionsNeverChange : Prop :=
  ∀ s : State, (s.statusRegister 4).toNat = s.params.W ∧ (s.statusRegister 5).toNat = s.params.H ∧
    ∀ t, step s = .next t → t.params = s.params

/-- Only SCANOUT emits events or touches the line buffer (R33, R36). -/
def Obligations.OnlyScanoutEmits : Prop :=
  ∀ (i : Instr) (s t : State), i ≠ .scanout → exec i s = .next t → t.trace = s.trace ∧ t.lb = s.lb

/-- R30: RESULT is written only by a completed FBRD and a completed PALQ; a faulting or discarded command leaves it. -/
def Obligations.ResultWrittenByReadsOnly : Prop :=
  ∀ (i : Instr) (s t : State), exec i s = .next t →
    (t.cause ≠ 0 → t.result = s.result) ∧
    ((∀ x y, i ≠ .fbrd x y) → (∀ c, i ≠ .palq c) → t.result = s.result) ∧
    (∀ c : Colour, i = .palq c → t.cause = 0 → t.result = s.params.palette[c.toNat]'c.isLt) ∧
    (∀ x y : Half, i = .fbrd x y → t.cause = 0 →
      ∃ v, s.cell (x.toNat * s.params.H + y.toNat) = some v ∧ t.result = v.setWidth 16)

/-- No command but FBINIT and FBFREE changes FBV, and none but a faulting one changes FAULT (R24). -/
def Obligations.HeldFlagWrittenByLifecycleOnly : Prop :=
  ∀ (i : Instr) (s t : State), exec i s = .next t →
    (i ≠ .fbinit → i ≠ .fbfree → t.fbv = s.fbv) ∧ (t.faultFlag = true ↔ t.cause ≠ 0) ∧
    (t.faultFlag ≠ s.faultFlag → s.cause = 0 ∧ t.cause ≠ 0)

/-- R160: every cell holds what it held, or FBINIT's 0x00, or the command's colour operand zero-extended; so no command
makes bits 7:4 of a cell other than 0. -/
def Obligations.WritesStoreTheColour : Prop :=
  ∀ (i : Instr) (s t : State), exec i s = .next t → ∀ (k : Nat) (v : Byte), t.cell k = some v →
    (s.cell k = some v ∨ (i = .fbinit ∧ v = 0) ∨ ∃ c, drawColour i = some c ∧ v = c.setWidth 8) ∧
    ((∀ u, s.cell k = some u → u.toNat < 16) → v.toNat < 16)

/-! The run of a program. -/

/-- A loaded program of any words, faulting ones among them, runs to its end and no further: after `k` words the machine is
in the run, which has ended exactly when `k` is all of them. From there on no action of the host before the next `rst`
changes that the run has ended, its result or its success, and `rst` takes the machine back to the program's start (R21,
R227; that `rst` starts the program anew is log 18's reading). -/
def Obligations.RunEndsWithItsLastWord : Prop := ∀ P : List Cmd,
  (∀ s : State, s.pc = 0 → ∀ k, k ≤ P.length → ∃ t : State,
    Host.Core.run Sys2Proof.core k (loadProgram P s) = .next t ∧ t.follows P ∧ (t.ended P ↔ k = P.length)) ∧
  (∀ s t : State, s.follows P → (∀ act rest, s.script = act :: rest → assertsReset act = false) → step s = .next t →
    t.follows P ∧
    (s.ended P → t.ended P ∧ t.runResult = s.runResult ∧ (t.endedSuccessfully P ↔ s.endedSuccessfully P))) ∧
  (∀ (s t : State) (act : HostAction) (rest : List HostAction), s.script = act :: rest → assertsReset act = true →
    step s = .next t → (t.ended P ↔ P = []))

/-! The invariant. -/

/-- The state after reset meets the invariant (R38). -/
def Obligations.ResetMeetsInvariant : Prop := State.reset.Inv

/-- Every step keeps the invariant (R22, R28, R29, R160, R185). -/
def Obligations.StepKeepsInvariant : Prop := ∀ s t : State, s.Inv → step s = .next t → t.Inv

/-- In a state that meets the invariant the conversion's mask changes no cell (R113). -/
def Obligations.MaskChangesNoCell : Prop :=
  ∀ (s : State) (m : Memory) (k : Nat), s.Inv → s.fb = some m → Memory.read m k &&& 0x0F = Memory.read m k

/-- In a state that meets the invariant a completed FBRD leaves RESULT in 0 to 15 (R168). -/
def Obligations.ReadbackBelowSixteen : Prop :=
  ∀ (s t : State) (x y : Half), s.Inv → exec (.fbrd x y) s = .next t → s.cause = 0 → t.cause = 0 → t.result.toNat < 16

/-! Status port and reset. -/

/-- R27: STATUS bit by bit; BUSY reads 0 as the rule lets a model without time have it. -/
def Obligations.StatusBits : Prop :=
  ∀ s : State, s.status.getLsbD 0 = false ∧ s.status.getLsbD 1 = s.fb.isSome ∧
    s.status.getLsbD 2 = decide (s.cause ≠ 0) ∧ ∀ k, 3 ≤ k → s.status.getLsbD k = false

/-- R25: the status port shows six registers and zero elsewhere, and a read changes nothing of the SRB. -/
def Obligations.StatusPortReads : Prop :=
  ∀ s : State,
    (s.statusRegister 0 = s.status.setWidth 64 ∧ s.statusRegister 1 = s.cause.setWidth 64 ∧ s.statusRegister 2 = s.fcmd ∧
      s.statusRegister 3 = s.result.setWidth 64 ∧ s.statusRegister 4 = s.params.dimW.setWidth 64 ∧
      s.statusRegister 5 = s.params.dimH.setWidth 64 ∧ ∀ n, 6 ≤ n → s.statusRegister n = 0) ∧
    ∀ (n : Nat) (rest : List HostAction), s.script = .readStatus n :: rest →
      step s = .next { s with script := rest, reads := s.reads ++ [(n, s.statusRegister n)] }

/-- R38: the values after reset (the cells of FB and LB are unspecified and nothing is said of them). -/
def Obligations.ResetValues : Prop :=
  State.reset.status = 0 ∧ State.reset.fbv = false ∧ State.reset.busy = false ∧ State.reset.faultFlag = false ∧
  State.reset.cause = 0 ∧ State.reset.fcmd = 0 ∧ State.reset.result = 0 ∧
  State.reset.statusRegister 4 = Config.params.dimW.setWidth 64 ∧
  State.reset.statusRegister 5 = Config.params.dimH.setWidth 64 ∧
  State.reset.params.palette = Config.params.palette ∧ State.reset.trace = [] ∧ State.reset.pc = 0

/-- R220: `rst` on an idle machine, from any state, gives the values of R38 and leaves parameters, palette and assets. -/
def Obligations.ResetFromAnyState : Prop :=
  ∀ (s : State) (rest : List HostAction), s.script = .reset :: rest →
    ∃ t, step s = .next t ∧ t.status = 0 ∧ t.cause = 0 ∧ t.fcmd = 0 ∧ t.result = 0 ∧ t.fb = none ∧
      t.trace = [] ∧ t.pc = 0 ∧ t.delivered = s.delivered ++ s.trace ∧ t.params = s.params ∧ t.asset = s.asset ∧
      t.script = rest

/-- R221: `rst` during a command leaves the state of R220, and of the command nothing but, for a SCANOUT in progress, its
first `k` events, each whole, for the draw `k`. -/
def Obligations.ResetDuringCommand : Prop :=
  ∀ (s : State) (w : Cmd) (k : Nat) (rest : List HostAction), s.script = .resetDuring w k :: rest →
    ∃ t, step s = .next t ∧ t.status = 0 ∧ t.cause = 0 ∧ t.fcmd = 0 ∧ t.result = 0 ∧ t.fb = none ∧ t.trace = [] ∧
      t.pc = 0 ∧ t.params = s.params ∧ t.asset = s.asset ∧ t.script = rest ∧
      (decode w = .ok .scanout → s.cause = 0 → ∀ m, s.fb = some m → k ≤ s.params.W →
        ∃ es, t.delivered = s.delivered ++ s.trace ++ es ∧ es.length = k ∧
          ∀ j, j < k → es[j]? = some ⟨j, lineBytes s.params m j⟩) ∧
      ((decode w ≠ .ok .scanout ∨ s.cause ≠ 0 ∨ s.fb = none) → t.delivered = s.delivered ++ s.trace)

/-- Between commands the host may rewrite an asset byte, which the next command sees (R63); an address outside the asset
space stops the model (log 6). -/
def Obligations.HostRewritesAssets : Prop :=
  ∀ (s : State) (a : Nat) (b : Byte) (rest : List HostAction), s.script = .writeAsset a b :: rest →
    (a < s.params.assetSize → ∃ t, step s = .next t ∧ t = { s with script := rest, asset := t.asset } ∧
      ∀ k, t.assetRead k = if k = a then b else s.assetRead k) ∧
    (s.params.assetSize ≤ a → step s = .fault .assetAddressAbsent)

/-! Faults. -/

/-- Fault entry writes the code of R190 and the whole word, and changes nothing else (R190, R200). -/
def Obligations.FaultEntry : Prop :=
  (∀ (f : Cause) (cmd : Cmd) (s : State), raise f cmd s = { s with cause := f.code, fcmd := cmd }) ∧
  Cause.illegalCommand.code = 1 ∧ Cause.allocationFailure.code = 2 ∧ Cause.fbAbsent.code = 3 ∧ Cause.fbHeld.code = 4 ∧
  Cause.outOfBounds.code = 5 ∧ Cause.assetOutOfRange.code = 6 ∧ Cause.iconTruncated.code = 7 ∧
  Cause.illegalScale.code = 9

/-- R193: the six commands that need a framebuffer take FbAbsent when none is held; PALQ and FBINIT never do. -/
def Obligations.FbAbsentFaults : Prop :=
  ∀ s : State, s.cause = 0 →
    (s.fb = none →
      exec .fbfree s = .next { s with cause := 3, fcmd := encode .fbfree } ∧
      exec .scanout s = .next { s with cause := 3, fcmd := encode .scanout } ∧
      (∀ y h c, exec (.fill y h c) s = .next { s with cause := 3, fcmd := encode (.fill y h c) }) ∧
      (∀ x y c sc a, exec (.glyph x y c sc a) s = .next { s with cause := 3, fcmd := encode (.glyph x y c sc a) }) ∧
      (∀ x y c sc a, exec (.icon x y c sc a) s = .next { s with cause := 3, fcmd := encode (.icon x y c sc a) }) ∧
      (∀ x y, exec (.fbrd x y) s = .next { s with cause := 3, fcmd := encode (.fbrd x y) })) ∧
    (∀ t, exec .fbinit s = .next t → t.cause ≠ 3) ∧
    (∀ c t, exec (.palq c) s = .next t → t.cause ≠ 3)

/-- R192: with `alloc_ok = 0` FBINIT takes AllocationFailure, no framebuffer is held, and every later command is discarded. -/
def Obligations.AllocationFailureAborts : Prop :=
  ∀ (s : State) (rest : List Bool), s.cause = 0 → s.fb = none → s.allocIn = false :: rest →
    ∃ t, exec .fbinit s = .next t ∧ t = { s with cause := 2, fcmd := 0x1000000000000000#64, allocIn := rest } ∧
      t.fbv = false ∧ ∀ j, exec j t = .next t

/-- R195: GLYPH and ICON with a framebuffer held take IllegalScale exactly when `s = 0`, and then change nothing else. -/
def Obligations.IllegalScaleExactlyZero : Prop :=
  ∀ (s t : State) (m : Memory) (x y : Half) (c : Colour) (sc : Byte) (a : Half), s.cause = 0 → s.fb = some m →
    ∀ i, (i = .glyph x y c sc a ∨ i = .icon x y c sc a) → exec i s = .next t →
      (t.cause = 9 ↔ sc = 0) ∧ (sc = 0 → t = { s with cause := 9, fcmd := encode i })

/-- R196: GLYPH and ICON take AssetOutOfRange exactly when a byte they may read lies outside the asset space. -/
def Obligations.AssetExtentChecked : Prop :=
  ∀ (s t : State) (m : Memory) (x y : Half) (c : Colour) (sc : Byte) (a : Half), s.cause = 0 → s.fb = some m → sc ≠ 0 →
    (exec (.glyph x y c sc a) s = .next t →
      ((t.cause = 6 ↔ s.params.assetSize < a.toNat + 6) ∧
       (t.cause = 6 → t = { s with cause := 6, fcmd := encode (.glyph x y c sc a) }))) ∧
    (exec (.icon x y c sc a) s = .next t →
      ((t.cause = 6 ↔ s.params.assetSize < a.toNat + 3 ∨
          s.params.assetSize < a.toNat + 3 + (s.assetRead (a.toNat + 2)).toNat) ∧
       (t.cause = 6 → t = { s with cause := 6, fcmd := encode (.icon x y c sc a) })))

/-- No command reads outside the asset space: two states that agree on the bytes below `ASSET_SIZE` give the same result of
every command, but for the asset space itself (R53, R196). -/
def Obligations.AssetReadsStayInside : Prop :=
  ∀ (i : Instr) (s t t' : State) (other : Memory),
    (∀ k, k < s.params.assetSize → Memory.read other k = s.assetRead k) →
    exec i s = .next t → exec i { s with asset := other } = .next t' → t' = { t with asset := other }

/-- R197: FILL, GLYPH, ICON and FBRD, their earlier checks passed, take OutOfBounds exactly when their target does not lie
inside the framebuffer, and then change nothing else. -/
def Obligations.BoundsChecked : Prop :=
  ∀ (s t : State) (m : Memory), s.cause = 0 → s.fb = some m →
    (∀ (y h : Half) (c : Colour), exec (.fill y h c) s = .next t →
      (t.cause = 5 ↔ s.params.H < y.toNat + h.toNat) ∧
      (t.cause = 5 → t = { s with cause := 5, fcmd := encode (.fill y h c) })) ∧
    (∀ x y : Half, exec (.fbrd x y) s = .next t →
      (t.cause = 5 ↔ s.params.W ≤ x.toNat ∨ s.params.H ≤ y.toNat) ∧
      (t.cause = 5 → t = { s with cause := 5, fcmd := encode (.fbrd x y) })) ∧
    (∀ (x y : Half) (c : Colour) (sc : Byte) (a : Half), sc ≠ 0 → a.toNat + 6 ≤ s.params.assetSize →
      exec (.glyph x y c sc a) s = .next t →
      (t.cause = 5 ↔ s.params.W < x.toNat + 6 * sc.toNat ∨ s.params.H < y.toNat + 8 * sc.toNat) ∧
      (t.cause = 5 → t = { s with cause := 5, fcmd := encode (.glyph x y c sc a) })) ∧
    (∀ (x y : Half) (c : Colour) (sc : Byte) (a : Half), sc ≠ 0 →
      a.toNat + 3 + iconLength s a.toNat ≤ s.params.assetSize → exec (.icon x y c sc a) s = .next t →
      (t.cause = 5 ↔ s.params.W < x.toNat + iconWidth s a.toNat * sc.toNat ∨
        s.params.H < y.toNat + iconHeight s a.toNat * sc.toNat) ∧
      (t.cause = 5 → t = { s with cause := 5, fcmd := encode (.icon x y c sc a) }))

/-- Faults are precise: a command that takes a fault writes its own word to FCMD and has no effect on FB, FBV, RESULT, LB or
the trace, but for an IconTruncated, which only ICON takes and which may have written the framebuffer (R203). -/
def Obligations.FaultsArePrecise : Prop :=
  ∀ (i : Instr) (s t : State), s.cause = 0 → exec i s = .next t → t.cause ≠ 0 →
    t.fcmd = encode i ∧ t.result = s.result ∧ t.trace = s.trace ∧ t.lb = s.lb ∧ t.fbv = s.fbv ∧
      (t.cause ≠ 7 → t.fb = s.fb) ∧ (t.cause = 7 → ∃ x y c sc a, i = .icon x y c sc a)

/-! Framebuffer commands. -/

/-- FBINIT with `alloc_ok = 1` and no framebuffer held: every cell reads 0x00, FBV is set, and nothing else changes but the
answer drawn (R161). -/
def Obligations.FbinitZeroesFramebuffer : Prop :=
  ∀ (s : State) (rest : List Bool), s.cause = 0 → s.fb = none → s.allocIn = true :: rest →
    ∃ t, exec .fbinit s = .next t ∧ (∀ k, t.cell k = some 0) ∧ t.fbv = true ∧
      t = { s with fb := t.fb, allocIn := rest }

/-- R194: FBINIT while a framebuffer is held takes FbHeld and changes nothing else. -/
def Obligations.FbinitWhileHeld : Prop :=
  ∀ (s : State) (m : Memory), s.cause = 0 → s.fb = some m →
    exec .fbinit s = .next { s with cause := 4, fcmd := 0x1000000000000000#64 }

/-- Where the environment's list holds no answer, FBINIT goes by the free value of its draw, whichever it is (log 2). -/
def Obligations.FbinitByFreeAnswer : Prop :=
  ∀ s : State, s.cause = 0 → s.fb = none → s.allocIn = [] →
    ∃ t, exec .fbinit s = .next t ∧
      if Config.allocOk s.draws = true then (∀ k, t.cell k = some 0) ∧ t = { s with fb := t.fb, draws := s.draws + 1 }
      else t = { s with cause := 2, fcmd := 0x1000000000000000#64, draws := s.draws + 1 }

/-- R162: FBFREE clears FBV and nothing else but the contents, which are then unspecified; with none held it takes FbAbsent. -/
def Obligations.FbfreeReleases : Prop :=
  ∀ s : State, s.cause = 0 →
    (∀ m, s.fb = some m → ∃ t, exec .fbfree s = .next t ∧ t.fbv = false ∧ t = { s with fb := none }) ∧
    (s.fb = none → exec .fbfree s = .next { s with cause := 3, fcmd := 0x2000000000000000#64 })

/-- Nothing drawn before a release can be seen after it: two states that differ only in what their held framebuffers
hold are the same after FBFREE (R162). -/
def Obligations.ReleaseForgetsContents : Prop :=
  ∀ (s : State) (m m' : Memory), s.cause = 0 →
    exec .fbfree { s with fb := some m } = exec .fbfree { s with fb := some m' }

/-- R163: FILL sets every pixel of every column at rows `[y, y+h)` to `c` and no other cell, when the rows fit; else it
takes OutOfBounds, and with no framebuffer FbAbsent, and writes nothing. -/
def Obligations.FillPaintsRows : Prop :=
  ∀ (s : State) (y h : Half) (c : Colour), s.cause = 0 →
    (∀ m, s.fb = some m → y.toNat + h.toNat ≤ s.params.H →
      ∃ t, exec (.fill y h c) s = .next t ∧ t = { s with fb := t.fb } ∧ t.fbv = true ∧
        (∀ X Y, X < s.params.W → Y < s.params.H → t.cell (X * s.params.H + Y) =
          if y.toNat ≤ Y ∧ Y < y.toNat + h.toNat then some (c.setWidth 8) else s.cell (X * s.params.H + Y)) ∧
        (∀ k, k ∉ barCells s.params y.toNat h.toNat → t.cell k = s.cell k)) ∧
    (∀ m, s.fb = some m → s.params.H < y.toNat + h.toNat →
      exec (.fill y h c) s = .next { s with cause := 5, fcmd := encode (.fill y h c) }) ∧
    (s.fb = none → exec (.fill y h c) s = .next { s with cause := 3, fcmd := encode (.fill y h c) })

/-- R168: FBRD leaves the pixel's cell, zero-extended, in RESULT and changes nothing else; outside the framebuffer it takes
OutOfBounds, with none held FbAbsent. -/
def Obligations.FbrdReadsCell : Prop :=
  ∀ (s : State) (x y : Half), s.cause = 0 →
    (∀ m, s.fb = some m → x.toNat < s.params.W → y.toNat < s.params.H →
      exec (.fbrd x y) s =
        .next { s with result := (Memory.read m (x.toNat * s.params.H + y.toNat)).setWidth 16 }) ∧
    (∀ m, s.fb = some m → (s.params.W ≤ x.toNat ∨ s.params.H ≤ y.toNat) →
      exec (.fbrd x y) s = .next { s with cause := 5, fcmd := encode (.fbrd x y) }) ∧
    (s.fb = none → exec (.fbrd x y) s = .next { s with cause := 3, fcmd := encode (.fbrd x y) })

/-- The order of a command's writes cannot be observed: filling a canonical memory at the same addresses in any order gives
the same memory (R60). -/
def Obligations.WriteOrderUnobservable : Prop :=
  ∀ (m : Memory) (ks js : List Nat) (v : Byte), Memory.wf m → (∀ k, k ∈ ks ↔ k ∈ js) →
    Memory.fill m ks v = Memory.fill m js v

/-! Palette. -/

/-- R112: PALQ leaves the palette entry in RESULT, for every index and with or without a framebuffer, and changes nothing
else; a faulted machine discards it. -/
def Obligations.PalqReadsPalette : Prop :=
  ∀ (s : State) (c : Colour),
    (s.cause = 0 → exec (.palq c) s = .next { s with result := s.params.palette[c.toNat]'c.isLt }) ∧
    (s.cause ≠ 0 → exec (.palq c) s = .next s)

/-! Glyph. -/

/-- GLYPH, its checks passed, paints exactly the blocks of its set bits, pixel by pixel, and changes nothing else (R121,
R125). -/
def Obligations.GlyphPaintsBlocks : Prop :=
  ∀ (s : State) (m : Memory) (x y : Half) (c : Colour) (sc : Byte) (a : Half),
    s.cause = 0 → s.fb = some m → sc ≠ 0 → a.toNat + 6 ≤ s.params.assetSize →
    x.toNat + 6 * sc.toNat ≤ s.params.W → y.toNat + 8 * sc.toNat ≤ s.params.H →
      ∃ t, exec (.glyph x y c sc a) s = .next t ∧ t = { s with fb := t.fb } ∧ t.fbv = true ∧
        (∀ X Y, X < s.params.W → Y < s.params.H → t.cell (X * s.params.H + Y) =
          if glyphCovers s x.toNat y.toNat sc.toNat a.toNat X Y then some (c.setWidth 8)
          else s.cell (X * s.params.H + Y)) ∧
        (∀ k, k ∉ rectCells s.params x.toNat y.toNat (6 * sc.toNat) (8 * sc.toNat) → t.cell k = s.cell k)

/-- R122: the faults of GLYPH in the order they are tested, each leaving every cell as it was. -/
def Obligations.GlyphFaultOrder : Prop :=
  ∀ (s : State) (x y : Half) (c : Colour) (sc : Byte) (a : Half), s.cause = 0 →
    decode (encode (.glyph x y c sc a)) = .ok (.glyph x y c sc a) ∧
    (s.fb = none → exec (.glyph x y c sc a) s = .next { s with cause := 3, fcmd := encode (.glyph x y c sc a) }) ∧
    (∀ m, s.fb = some m → sc = 0 →
      exec (.glyph x y c sc a) s = .next { s with cause := 9, fcmd := encode (.glyph x y c sc a) }) ∧
    (∀ m, s.fb = some m → sc ≠ 0 → s.params.assetSize < a.toNat + 6 →
      exec (.glyph x y c sc a) s = .next { s with cause := 6, fcmd := encode (.glyph x y c sc a) }) ∧
    (∀ m, s.fb = some m → sc ≠ 0 → a.toNat + 6 ≤ s.params.assetSize →
      (s.params.W < x.toNat + 6 * sc.toNat ∨ s.params.H < y.toNat + 8 * sc.toNat) →
      exec (.glyph x y c sc a) s = .next { s with cause := 5, fcmd := encode (.glyph x y c sc a) })

/-! Icon. -/

/-- R138: the decoder's bits are those of the closed form: `n` calls of `NextBit()` from the start of an icon return the first
`n` bits of `E`, or all of `E` and then IconTruncated. -/
def Obligations.DecoderMatchesExpansion : Prop :=
  ∀ (s : State) (a : Half) (len : Byte) (n : Nat),
    bitsFrom s n (decoderStart a len) = (expand (iconStream s a.toNat len.toNat)).take n

/-- R133: what one stream byte gives, from a decoder that needs a byte and may read one: a run marker `b[5:0]` copies of `b[6]`,
a literal byte its seven low bits from bit 0 up, and then IconTruncated. -/
def Obligations.OneStreamByteDecodes : Prop :=
  ∀ (s : State) (d : Decoder), d.mask = 0x80 → d.runLength = 0 → d.budget = 1 →
    ∀ b, s.assetRead d.p.toNat = b → ∀ n, 63 < n →
      (b.getLsbD 7 = true → bitsFrom s n d = List.replicate (b.toNat % 64) (b.getLsbD 6)) ∧
      (b.getLsbD 7 = false → bitsFrom s n d =
        [b.getLsbD 0, b.getLsbD 1, b.getLsbD 2, b.getLsbD 3, b.getLsbD 4, b.getLsbD 5, b.getLsbD 6])

/-- ICON, its checks passed and its stream long enough, paints exactly the blocks of its 1 bits, pixel by pixel, and changes
nothing else (R138, R139). -/
def Obligations.IconPaintsDecodedBits : Prop :=
  ∀ (s : State) (m : Memory) (x y : Half) (c : Colour) (sc : Byte) (a : Half),
    iconAccepted s m x.toNat y.toNat sc.toNat a.toNat →
    iconWidth s a.toNat * iconHeight s a.toNat ≤ (iconBits s a.toNat).length →
      ∃ t, exec (.icon x y c sc a) s = .next t ∧ t = { s with fb := t.fb } ∧ t.fbv = true ∧
        (∀ X Y, X < s.params.W → Y < s.params.H → t.cell (X * s.params.H + Y) =
          if iconCovers s x.toNat y.toNat sc.toNat a.toNat X Y then some (c.setWidth 8)
          else s.cell (X * s.params.H + Y)) ∧
        (∀ k, k ∉ rectCells s.params x.toNat y.toNat (iconWidth s a.toNat * sc.toNat) (iconHeight s a.toNat * sc.toNat) →
          t.cell k = s.cell k)

/-- ICON whose stream yields too few bits takes IconTruncated: the pixels decoded before the missing byte are painted, no
other cell changes, and nothing else but CAUSE and FCMD does (R138, R141). -/
def Obligations.IconTruncationKeepsPainted : Prop :=
  ∀ (s : State) (m : Memory) (x y : Half) (c : Colour) (sc : Byte) (a : Half),
    iconAccepted s m x.toNat y.toNat sc.toNat a.toNat →
    (iconBits s a.toNat).length < iconWidth s a.toNat * iconHeight s a.toNat →
      ∃ t, exec (.icon x y c sc a) s = .next t ∧
        t = { s with fb := t.fb, cause := 7, fcmd := encode (.icon x y c sc a) } ∧ t.fbv = true ∧
        (∀ X Y, X < s.params.W → Y < s.params.H → t.cell (X * s.params.H + Y) =
          if iconCovers s x.toNat y.toNat sc.toNat a.toNat X Y then some (c.setWidth 8)
          else s.cell (X * s.params.H + Y)) ∧
        (∀ k, k ∉ rectCells s.params x.toNat y.toNat (iconWidth s a.toNat * sc.toNat) (iconHeight s a.toNat * sc.toNat) →
          t.cell k = s.cell k)

/-- The faults of ICON that are tested before the first write, in their order, each leaving every cell as it was (R140). -/
def Obligations.IconFaultOrder : Prop :=
  ∀ (s : State) (x y : Half) (c : Colour) (sc : Byte) (a : Half), s.cause = 0 →
    (s.fb = none → exec (.icon x y c sc a) s = .next { s with cause := 3, fcmd := encode (.icon x y c sc a) }) ∧
    (∀ m, s.fb = some m → sc = 0 →
      exec (.icon x y c sc a) s = .next { s with cause := 9, fcmd := encode (.icon x y c sc a) }) ∧
    (∀ m, s.fb = some m → sc ≠ 0 → s.params.assetSize < a.toNat + 3 →
      exec (.icon x y c sc a) s = .next { s with cause := 6, fcmd := encode (.icon x y c sc a) }) ∧
    (∀ m, s.fb = some m → sc ≠ 0 → a.toNat + 3 ≤ s.params.assetSize →
      s.params.assetSize < a.toNat + 3 + iconLength s a.toNat →
      exec (.icon x y c sc a) s = .next { s with cause := 6, fcmd := encode (.icon x y c sc a) }) ∧
    (∀ m, s.fb = some m → sc ≠ 0 → a.toNat + 3 + iconLength s a.toNat ≤ s.params.assetSize →
      (s.params.W < x.toNat + iconWidth s a.toNat * sc.toNat ∨
        s.params.H < y.toNat + iconHeight s a.toNat * sc.toNat) →
      exec (.icon x y c sc a) s = .next { s with cause := 5, fcmd := encode (.icon x y c sc a) })

/-- An icon of width or height 0, its checks passed, completes and changes nothing (R143 a). -/
def Obligations.EmptyIconPaintsNothing : Prop :=
  ∀ (s : State) (m : Memory) (x y : Half) (c : Colour) (sc : Byte) (a : Half),
    iconAccepted s m x.toNat y.toNat sc.toNat a.toNat → (iconWidth s a.toNat = 0 ∨ iconHeight s a.toNat = 0) →
      exec (.icon x y c sc a) s = .next s

/-! Scanout. -/

/-- R184: SCANOUT appends one event for each column, in increasing line index, each the column's pixels through the
palette, high byte first, and changes nothing else but the line buffer; with no framebuffer it takes FbAbsent. -/
def Obligations.ScanoutEmitsLines : Prop :=
  ∀ s : State, s.cause = 0 →
    (∀ m, s.fb = some m → ∃ t es, exec .scanout s = .next t ∧ t = { s with trace := t.trace, lb := t.lb } ∧
      t.trace = s.trace ++ es ∧ es.length = s.params.W ∧
      ∀ i, i < s.params.W → ∃ e, es[i]? = some e ∧ e.index = i ∧ e.bytes.length = 2 * s.params.H ∧
        ∀ y, y < s.params.H → ∃ v : Rgb565,
          v = s.params.palette[(Memory.read m (i * s.params.H + y)).toNat % 16]'(Nat.mod_lt _ (by decide)) ∧
          e.bytes[2 * y]? = some (v.extractLsb' 8 8) ∧ e.bytes[2 * y + 1]? = some (v.extractLsb' 0 8)) ∧
    (s.fb = none → exec .scanout s = .next { s with cause := 3, fcmd := encode .scanout })

/-- After a completed SCANOUT the line buffer holds the bytes of the last line: the model's choice, log 4. R182 gives the
bytes of a line while it is built; between commands R33 leaves the buffer any value, which nothing can observe (U14). -/
def Obligations.LineBufferHoldsLastLine : Prop :=
  ∀ (s : State) (m : Memory), s.cause = 0 → s.fb = some m → 1 ≤ s.params.W →
    ∃ t, exec .scanout s = .next t ∧ ∀ k, k < 2 * s.params.H →
      (lineBytes s.params m (s.params.W - 1))[k]? = some (Memory.read t.lb k)

/-! Host software. -/

/-- R151: the character mapping, and the glyph index it gives. -/
def Obligations.CharacterMapping : Prop :=
  ∀ ch : Byte, mapChar ch = (if 0x20 ≤ ch.toNat ∧ ch.toNat ≤ 0x7E then ch.toNat else 0x3F) ∧ 0x20 ≤ mapChar ch ∧
    mapChar ch - 0x20 ≤ 94

/-- At scales of 2 and above every GLYPH line of a TEXT fits the display width (R154). -/
def Obligations.ScaledTextFitsWidth : Prop :=
  ∀ (p : Params) (x y c s : Nat) (t : List Byte), 2 ≤ s → ∀ l ∈ layoutFrom p x c s x y t,
    ∃ X Y a, l = .glyph X Y c s a ∧ X + 6 * s ≤ p.W

/-- R155, R156: at scale 1 a TEXT is one CHAR line for each character but the newlines, in their order, each at the cursor
the characters before it leave: nothing is clipped by width. That the newline is 0x0A, and 0x3F the question mark CHAR
draws for a code without a glyph, is PRESUMED (log 13). -/
def Obligations.UnscaledTextIsNotClipped : Prop :=
  ∀ (p : Params) (x c cx cy : Nat) (t : List Byte),
    (layoutFrom p x c 1 cx cy t).length = (drawn t).length ∧
    ∀ (before after : List Byte) (ch : Byte), t = before ++ ch :: after → ch ≠ 0x0A →
      (layoutFrom p x c 1 cx cy t)[(drawn before).length]? =
        some (charLine p (cursorColumn x cx before) (cursorRow cy before) c 1 ch)

/-- An operand that does not fit its field is refused, never truncated: a command assembles from its own line only
(R90). -/
def Obligations.AssemblerNeverTruncates : Prop :=
  (∀ i : Instr, assembleCommand (lineOf i) = some i) ∧
  ∀ (l : AsmLine) (i : Instr), assembleCommand l = some i → l = lineOf i
end

