-- ==== Sys2Proof/Laws/Encoding.lean ====
section
/-! SUPPORT. Words and their fields: each field of a packed word is what was put there, and a word is packed from its
fields. -/
namespace Sys2Proof

section fields
variable (op : BitVec 4) (c : Colour) (s : Byte) (a y x : Half)

@[simp] theorem fieldOp_pack : fieldOp (pack op c s a y x) = op := by
  refine BitVec.eq_of_getLsbD_eq fun i hi => ?_
  simp only [fieldOp, pack, BitVec.getLsbD_extractLsb', BitVec.getLsbD_append, hi, decide_true, Bool.true_and]
  iterate 5 rw [if_neg (by omega)]
  congr 1
  omega

@[simp] theorem fieldC_pack : fieldC (pack op c s a y x) = c := by
  refine BitVec.eq_of_getLsbD_eq fun i hi => ?_
  simp only [fieldC, pack, BitVec.getLsbD_extractLsb', BitVec.getLsbD_append, hi, decide_true, Bool.true_and]
  iterate 4 rw [if_neg (by omega)]
  rw [if_pos (by omega)]
  congr 1
  omega

@[simp] theorem fieldS_pack : fieldS (pack op c s a y x) = s := by
  refine BitVec.eq_of_getLsbD_eq fun i hi => ?_
  simp only [fieldS, pack, BitVec.getLsbD_extractLsb', BitVec.getLsbD_append, hi, decide_true, Bool.true_and]
  iterate 3 rw [if_neg (by omega)]
  rw [if_pos (by omega)]
  congr 1
  omega

@[simp] theorem fieldA_pack : fieldA (pack op c s a y x) = a := by
  refine BitVec.eq_of_getLsbD_eq fun i hi => ?_
  simp only [fieldA, pack, BitVec.getLsbD_extractLsb', BitVec.getLsbD_append, hi, decide_true, Bool.true_and]
  iterate 2 rw [if_neg (by omega)]
  rw [if_pos (by omega)]
  congr 1
  omega

@[simp] theorem fieldY_pack : fieldY (pack op c s a y x) = y := by
  refine BitVec.eq_of_getLsbD_eq fun i hi => ?_
  simp only [fieldY, pack, BitVec.getLsbD_extractLsb', BitVec.getLsbD_append, hi, decide_true, Bool.true_and]
  rw [if_neg (by omega), if_pos (by omega)]
  congr 1
  omega

@[simp] theorem fieldX_pack : fieldX (pack op c s a y x) = x := by
  refine BitVec.eq_of_getLsbD_eq fun i hi => ?_
  simp only [fieldX, pack, BitVec.getLsbD_extractLsb', BitVec.getLsbD_append, hi, decide_true, Bool.true_and]
  rw [if_pos (by omega)]
  congr 1
  omega

end fields

/-- A word is packed from its own fields (R81: the six fields are all of its 64 bits). -/
theorem pack_fields (w : Cmd) :
    pack (fieldOp w) (fieldC w) (fieldS w) (fieldA w) (fieldY w) (fieldX w) = w := by
  refine BitVec.eq_of_getLsbD_eq fun i hi => ?_
  simp only [pack, fieldOp, fieldC, fieldS, fieldA, fieldY, fieldX, BitVec.getLsbD_append, BitVec.getLsbD_extractLsb']
  split
  · rw [decide_eq_true (by omega), Bool.true_and]; congr 1; omega
  split
  · rw [decide_eq_true (by omega), Bool.true_and]; congr 1; omega
  split
  · rw [decide_eq_true (by omega), Bool.true_and]; congr 1; omega
  split
  · rw [decide_eq_true (by omega), Bool.true_and]; congr 1; omega
  split
  · rw [decide_eq_true (by omega), Bool.true_and]; congr 1; omega
  · rw [decide_eq_true (by omega), Bool.true_and]; congr 1; omega

/-- Masking a word masks each field. -/
theorem pack_and (op op' : BitVec 4) (c c' : Colour) (s s' : Byte) (a a' y y' x x' : Half) :
    pack op c s a y x &&& pack op' c' s' a' y' x' =
      pack (op &&& op') (c &&& c') (s &&& s') (a &&& a') (y &&& y') (x &&& x') := by
  change (op ++ c ++ s ++ a ++ y ++ x) &&& (op' ++ c' ++ s' ++ a' ++ y' ++ x') =
    (op &&& op') ++ (c &&& c') ++ (s &&& s') ++ (a &&& a') ++ (y &&& y') ++ (x &&& x')
  simp only [BitVec.and_append]

end Sys2Proof
end

