-- ==== Sys2Proof/Laws/Memory.lean ====
section
/-! SUPPORT. What the byte memories do: a read after a write, a fill or a tabulation, and the canonical form kept by each. -/
namespace Sys2Proof.Machine

theorem Memory.read_nil (k : Nat) : Memory.read [] k = 0 := rfl

theorem Memory.lookup_cons_ite (a : Nat) (b : Byte) (m : Memory) (j : Nat) :
    List.lookup j ((a, b) :: m) = if j = a then some b else List.lookup j m := by
  by_cases h : j = a
  · simp [h]
  · have hb : (j == a) = false := by simpa using h
    rw [List.lookup_cons, hb, if_neg h]

theorem Memory.lookup_filter_ne (m : Memory) (k j : Nat) :
    (m.filter fun p => p.1 != k).lookup j = if j = k then none else m.lookup j := by
  induction m with
  | nil => simp
  | cons p m ih =>
    obtain ⟨a, b⟩ := p
    rw [List.filter_cons, Memory.lookup_cons_ite]
    by_cases hak : a = k
    · rw [if_neg (by simpa using hak), ih]
      by_cases hjk : j = k
      · simp [hjk]
      · rw [if_neg hjk, if_neg hjk, if_neg (by omega)]
    · rw [if_pos (by simpa using hak), Memory.lookup_cons_ite, ih]
      by_cases hja : j = a
      · simp [hja, hak]
      · simp [hja]

theorem Memory.lookup_insert (m : Memory) (k : Nat) (v : Byte) (j : Nat) (hk : ∀ p ∈ m, p.1 ≠ k) :
    (Memory.insert k v m).lookup j = if j = k then some v else m.lookup j := by
  induction m with
  | nil => exact Memory.lookup_cons_ite ..
  | cons p m ih =>
    obtain ⟨a, b⟩ := p
    have hak : a ≠ k := hk (a, b) (by simp)
    unfold Memory.insert
    split
    · rw [Memory.lookup_cons_ite, Memory.lookup_cons_ite, ih fun q hq => hk q (by simp [hq])]
      by_cases hja : j = a
      · simp [hja, hak]
      · simp [hja]
    · exact Memory.lookup_cons_ite ..

/-- A read after a write: the byte written at that address, what was there at every other. -/
theorem Memory.read_write (m : Memory) (k : Nat) (v : Byte) (j : Nat) :
    Memory.read (Memory.write m k v) j = if j = k then v else Memory.read m j := by
  unfold Memory.read Memory.write
  simp only
  split
  · rename_i hv
    rw [Memory.lookup_filter_ne]
    by_cases h : j = k <;> simp [h, hv]
  · rw [Memory.lookup_insert _ _ _ _ (by simp), Memory.lookup_filter_ne]
    by_cases h : j = k <;> simp [h]

/-- A read after a fill: the byte written at every address of the list, what was there at every other. -/
theorem Memory.read_fill (m : Memory) (ks : List Nat) (v : Byte) (j : Nat) :
    Memory.read (Memory.fill m ks v) j = if j ∈ ks then v else Memory.read m j := by
  unfold Memory.fill
  induction ks generalizing m with
  | nil => simp
  | cons k ks ih =>
    rw [List.foldl_cons, ih, Memory.read_write]
    by_cases h1 : j ∈ ks <;> by_cases h2 : j = k <;> simp [h1, h2]

theorem Memory.fill_append (m : Memory) (ks js : List Nat) (v : Byte) :
    Memory.fill m (ks ++ js) v = Memory.fill (Memory.fill m ks v) js v :=
  List.foldl_append ..

theorem Memory.mem_insert {k : Nat} {v : Byte} {m : Memory} {p : Host.Cell} :
    p ∈ Memory.insert k v m ↔ p = (k, v) ∨ p ∈ m := by
  induction m with
  | nil => simp [Memory.insert]
  | cons q m ih =>
    unfold Memory.insert
    split
    · simp only [List.mem_cons, ih]; tauto
    · simp only [List.mem_cons]

/-- Every cell after a write is the cell written or was there before. -/
theorem Memory.mem_write {m : Memory} {k : Nat} {v : Byte} {p : Host.Cell} (h : p ∈ Memory.write m k v) :
    (p = (k, v) ∧ v ≠ Memory.unlisted) ∨ p ∈ m := by
  unfold Memory.write at h
  simp only at h
  split at h
  · exact .inr (List.mem_of_mem_filter h)
  · rename_i hv
    rcases Memory.mem_insert.1 h with h | h
    · exact .inl ⟨h, hv⟩
    · exact .inr (List.mem_of_mem_filter h)

theorem Memory.insert_pairwise {k : Nat} {v : Byte} {m : Memory} (hm : m.Pairwise fun p q => p.1 < q.1)
    (hk : ∀ p ∈ m, p.1 ≠ k) : (Memory.insert k v m).Pairwise fun p q => p.1 < q.1 := by
  induction m with
  | nil => simp [Memory.insert]
  | cons q m ih =>
    have hq := List.pairwise_cons.1 hm
    have hqk : q.1 ≠ k := hk q (by simp)
    unfold Memory.insert
    split
    · refine List.pairwise_cons.2 ⟨fun p hp => ?_, ih hq.2 fun p hp => hk p (by simp [hp])⟩
      rcases Memory.mem_insert.1 hp with rfl | hp
      · assumption
      · exact hq.1 p hp
    · refine List.pairwise_cons.2 ⟨fun p hp => ?_, hm⟩
      rcases List.mem_cons.1 hp with rfl | hp
      · show k < p.1
        omega
      · have := hq.1 p hp
        show k < p.1
        omega

/-- A write keeps the canonical form. -/
theorem Memory.wf_write {m : Memory} (hm : Memory.wf m) (k : Nat) (v : Byte) : Memory.wf (Memory.write m k v) := by
  refine ⟨?_, fun p hp => ?_⟩
  · unfold Memory.write
    simp only
    split
    · exact hm.1.filter _
    · exact Memory.insert_pairwise (hm.1.filter _) (by simp)
  · rcases Memory.mem_write hp with ⟨rfl, hv⟩ | hp
    · exact hv
    · exact hm.2 p hp

/-- A write inside a space stays inside it. -/
theorem Memory.below_write {m : Memory} {n k : Nat} (hm : Memory.below m n) (hk : k < n) (v : Byte) :
    Memory.below (Memory.write m k v) n := fun p hp => by
  rcases Memory.mem_write hp with ⟨rfl, -⟩ | hp
  · exact hk
  · exact hm p hp

/-- A fill keeps the canonical form. -/
theorem Memory.wf_fill {m : Memory} (hm : Memory.wf m) (ks : List Nat) (v : Byte) : Memory.wf (Memory.fill m ks v) := by
  unfold Memory.fill
  induction ks generalizing m with
  | nil => exact hm
  | cons k ks ih => exact ih (Memory.wf_write hm k v)

/-- A fill inside a space stays inside it. -/
theorem Memory.below_fill {m : Memory} {n : Nat} {ks : List Nat} (hm : Memory.below m n) (hks : ∀ k ∈ ks, k < n)
    (v : Byte) : Memory.below (Memory.fill m ks v) n := by
  unfold Memory.fill
  induction ks generalizing m with
  | nil => exact hm
  | cons k ks ih =>
    exact ih (Memory.below_write hm (hks k (by simp)) v) fun j hj => hks j (by simp [hj])

/-- Every byte after a fill is the byte written or was there before. -/
theorem Memory.mem_fill {m : Memory} {ks : List Nat} {v : Byte} {p : Host.Cell} (h : p ∈ Memory.fill m ks v) :
    p.2 = v ∨ p ∈ m := by
  unfold Memory.fill at h
  induction ks generalizing m with
  | nil => exact .inr h
  | cons k ks ih =>
    rcases ih h with h | h
    · exact .inl h
    · rcases Memory.mem_write h with ⟨rfl, -⟩ | h
      · exact .inl rfl
      · exact .inr h

theorem Memory.mem_tabulate {n : Nat} {f : Nat → Byte} {p : Host.Cell} :
    p ∈ Memory.tabulate n f ↔ p.1 < n ∧ p.2 = f p.1 ∧ p.2 ≠ Memory.unlisted := by
  obtain ⟨a, b⟩ := p
  simp only [Memory.tabulate, List.mem_filterMap, List.mem_range]
  constructor
  · rintro ⟨k, hk, h⟩
    split at h
    · cases h
    · rename_i hf
      obtain ⟨rfl, rfl⟩ := Prod.mk.inj (Option.some.inj h)
      exact ⟨hk, rfl, hf⟩
  · rintro ⟨ha, hb, hv⟩
    exact ⟨a, ha, by rw [if_neg (hb ▸ hv), hb]⟩

/-- A tabulated memory is in canonical form. -/
theorem Memory.wf_tabulate (n : Nat) (f : Nat → Byte) : Memory.wf (Memory.tabulate n f) := by
  refine ⟨?_, fun p hp => (Memory.mem_tabulate.1 hp).2.2⟩
  unfold Memory.tabulate
  rw [List.pairwise_filterMap]
  refine List.pairwise_lt_range.imp fun {a b} hab p hp q hq => ?_
  split at hp <;> split at hq <;> simp_all
  obtain ⟨rfl, rfl⟩ := hp
  obtain ⟨rfl, rfl⟩ := hq
  exact hab

/-- A tabulated memory lies inside its space. -/
theorem Memory.below_tabulate (n : Nat) (f : Nat → Byte) : Memory.below (Memory.tabulate n f) n :=
  fun _ hp => (Memory.mem_tabulate.1 hp).1

theorem Memory.lookup_eq_some_of_mem {m : Memory} (hm : m.Pairwise fun p q => p.1 < q.1) {k : Nat} {v : Byte}
    (h : (k, v) ∈ m) : m.lookup k = some v := by
  induction m with
  | nil => cases h
  | cons q m ih =>
    have hq := List.pairwise_cons.1 hm
    rcases List.mem_cons.1 h with rfl | h
    · simp
    · have := hq.1 _ h
      have hb : (k == q.1) = false := by simp; omega
      rw [List.lookup_cons, hb]
      exact ih hq.2 h

theorem Memory.lookup_eq_none_of_no_mem {m : Memory} {k : Nat} (h : ∀ p ∈ m, p.1 ≠ k) : m.lookup k = none := by
  induction m with
  | nil => rfl
  | cons q m ih =>
    have hb : (k == q.1) = false := by simpa using fun e => h q (by simp) e.symm
    rw [List.lookup_cons, hb]
    exact ih fun p hp => h p (by simp [hp])

/-- A read of a tabulated memory gives the byte of its function, and the unlisted byte outside. -/
theorem Memory.read_tabulate (n : Nat) (f : Nat → Byte) (k : Nat) :
    Memory.read (Memory.tabulate n f) k = if k < n then f k else Memory.unlisted := by
  unfold Memory.read
  by_cases h : k < n ∧ f k ≠ Memory.unlisted
  · rw [Memory.lookup_eq_some_of_mem (Memory.wf_tabulate n f).1 (Memory.mem_tabulate.2 ⟨h.1, rfl, h.2⟩), if_pos h.1]
    rfl
  · rw [Memory.lookup_eq_none_of_no_mem]
    · split
      · rename_i hk
        exact (not_not.1 fun hv => h ⟨hk, hv⟩).symm
      · rfl
    · rintro p hp rfl
      have := Memory.mem_tabulate.1 hp
      exact h ⟨this.1, this.2.1 ▸ this.2.2⟩

/-- Every byte of a memory whose cells are below a bound reads below it. -/
theorem Memory.read_lt {m : Memory} {b : Nat} (hb : 0 < b) (h : ∀ p ∈ m, p.2.toNat < b) (k : Nat) :
    (Memory.read m k).toNat < b := by
  unfold Memory.read
  cases hl : m.lookup k with
  | none => simpa [Memory.unlisted] using hb
  | some v =>
    have : (k, v) ∈ m := by
      clear h
      induction m with
      | nil => cases hl
      | cons q m ih =>
        by_cases hk : k = q.1
        · rw [Memory.lookup_cons_ite, if_pos hk] at hl
          cases hl
          simp [hk]
        · rw [Memory.lookup_cons_ite, if_neg hk] at hl
          exact List.mem_cons_of_mem _ (ih hl)
    exact h _ this

end Sys2Proof.Machine
end

