-- ==== Sys2Proof/Laws/Operands.lean ====
section
/-! SUPPORT. Which addresses a rectangle holds, and which fit the framebuffer. -/
namespace Sys2Proof.Machine

theorem mem_columnMajor {w h : Nat} {d : Nat × Nat} : d ∈ columnMajor w h ↔ d.1 < w ∧ d.2 < h := by
  obtain ⟨i, j⟩ := d
  simp [columnMajor]

/-- The addresses of a rectangle are those of its pixels. -/
theorem mem_rectCells {p : Params} {x y w h k : Nat} :
    k ∈ rectCells p x y w h ↔ ∃ i < w, ∃ j < h, k = pix p (x + i) (y + j) := by
  simp only [rectCells, List.mem_map, mem_columnMajor, Prod.exists]
  constructor
  · rintro ⟨i, j, ⟨hi, hj⟩, rfl⟩
    exact ⟨i, hi, j, hj, rfl⟩
  · rintro ⟨i, hi, j, hj, rfl⟩
    exact ⟨i, j, ⟨hi, hj⟩, rfl⟩

/-- The address of a pixel inside the framebuffer lies inside it (R51). -/
theorem pix_lt {p : Params} {x y : Nat} (h : pixelInside p x y) : pix p x y < p.W * p.H := by
  have h1 : (x + 1) * p.H ≤ p.W * p.H := Nat.mul_le_mul_right _ h.1
  have h2 := h.2
  rw [Nat.succ_mul] at h1
  unfold pix
  omega

/-- Two pixels inside their columns have the same address only when they are the same pixel (R51). -/
theorem pix_inj {p : Params} {x y x' y' : Nat} (hy : y < p.H) (hy' : y' < p.H) :
    pix p x y = pix p x' y' ↔ x = x' ∧ y = y' := by
  refine ⟨fun h => ?_, fun ⟨hx, hy⟩ => by rw [hx, hy]⟩
  unfold pix at h
  have hx : x = x' := by
    rcases Nat.lt_trichotomy x x' with hlt | heq | hgt
    · have := Nat.mul_le_mul_right p.H (Nat.succ_le_of_lt hlt)
      rw [Nat.succ_mul] at this
      omega
    · exact heq
    · have := Nat.mul_le_mul_right p.H (Nat.succ_le_of_lt hgt)
      rw [Nat.succ_mul] at this
      omega
  subst hx
  exact ⟨rfl, by omega⟩

/-- Which pixel of a column-high framebuffer an address of a rectangle is. -/
theorem pix_mem_rectCells {p : Params} {x y w h X Y : Nat} (hr : y + h ≤ p.H) (hY : Y < p.H) :
    pix p X Y ∈ rectCells p x y w h ↔ (x ≤ X ∧ X < x + w) ∧ (y ≤ Y ∧ Y < y + h) := by
  rw [mem_rectCells]
  constructor
  · rintro ⟨i, hi, j, hj, h⟩
    obtain ⟨rfl, rfl⟩ := (pix_inj hY (by omega)).1 h
    omega
  · rintro ⟨⟨h1, h2⟩, h3, h4⟩
    exact ⟨X - x, by omega, Y - y, by omega, by rw [Nat.add_sub_cancel' h1, Nat.add_sub_cancel' h3]⟩

/-- Every address of a rectangle inside the framebuffer lies inside it. -/
theorem rectCells_lt {p : Params} {x y w h k : Nat} (hr : rectInside p x y w h) (hk : k ∈ rectCells p x y w h) :
    k < p.W * p.H := by
  obtain ⟨i, hi, j, hj, rfl⟩ := mem_rectCells.1 hk
  have := hr.1
  have := hr.2
  exact pix_lt ⟨by omega, by omega⟩

/-- The block of a source pixel lies inside its drawing's rectangle. -/
theorem block_inside {p : Params} {x y sc w h i j : Nat} (hr : rectInside p x y (w * sc) (h * sc)) (hi : i < w)
    (hj : j < h) : rectInside p (x + i * sc) (y + j * sc) sc sc := by
  have h1 : (i + 1) * sc ≤ w * sc := Nat.mul_le_mul_right _ hi
  have h2 : (j + 1) * sc ≤ h * sc := Nat.mul_le_mul_right _ hj
  rw [Nat.succ_mul] at h1 h2
  have := hr.1
  have := hr.2
  exact ⟨by omega, by omega⟩

/-- The addresses a GLYPH paints are those of the blocks of its set bits. -/
theorem mem_glyphCells {s : State} {x y sc a k : Nat} :
    k ∈ glyphCells s x y sc a ↔
      ∃ col < 6, ∃ row < 8, glyphBit (s.assetRead (a + col)) row = true ∧ k ∈ blockCells s.params x y sc col row := by
  simp only [glyphCells, List.mem_flatMap, mem_columnMajor, Prod.exists]
  constructor
  · rintro ⟨col, row, ⟨hc, hr⟩, h⟩
    split at h
    · rename_i hb
      exact ⟨col, hc, row, hr, hb, h⟩
    · cases h
  · rintro ⟨col, hc, row, hr, hb, h⟩
    exact ⟨col, row, ⟨hc, hr⟩, by rw [if_pos hb]; exact h⟩

/-- The byte a drawing stores has its upper four bits zero (R160). -/
theorem paint_lt (c : Colour) : (paint c).toNat < 16 := by
  have := c.isLt
  simp only [paint, BitVec.toNat_setWidth]
  omega

/-- A line has two bytes for each pixel of a column (R182). -/
theorem lineBytes_length (p : Params) (m : Memory) (x : Nat) : (lineBytes p m x).length = 2 * p.H := by
  simp [lineBytes, bigEndian, List.length_flatMap, Nat.mul_comm]

/-- The events of a SCANOUT: line `i` is column `i` (R185). -/
theorem mem_scanLines {p : Params} {m : Memory} {e : LineEvent} :
    e ∈ scanLines p m ↔ e.index < p.W ∧ e.bytes = lineBytes p m e.index := by
  obtain ⟨i, bs⟩ := e
  simp [scanLines, eq_comm]

end Sys2Proof.Machine
end

