-- ==== Sys2Proof/Laws/Icon.lean ====
section
/-! SUPPORT. What the icon decoder and blitter do: the cases of one pass, and what a blit keeps. -/
namespace Sys2Proof.Machine

/-- One pass inside a literal byte (R135, first case). -/
theorem nextBitIn_literal {d : Decoder} (h : d.mask ≠ 0x80) (s : State) (n : Nat) :
    nextBitIn s (n + 1) d = some (d.lastByte &&& d.mask != 0, { d with mask := d.mask <<< 1 }) := by
  rw [nextBitIn, if_pos h]

/-- One pass inside a run (R135, second case). -/
theorem nextBitIn_run {d : Decoder} (hm : d.mask = 0x80) (hr : d.runLength ≠ 0) (s : State) (n : Nat) :
    nextBitIn s (n + 1) d = some (d.runBit, { d with runLength := d.runLength - 1 }) := by
  rw [nextBitIn, if_neg (not_not.2 hm), if_pos hr]

/-- One pass that needs a byte and may read none (R141). -/
theorem nextBitIn_truncated {d : Decoder} (hm : d.mask = 0x80) (hr : d.runLength = 0) (hb : d.budget = 0) (s : State)
    (n : Nat) : nextBitIn s n d = none := by
  cases n with
  | zero => rfl
  | succ n => rw [nextBitIn, if_neg (not_not.2 hm), if_neg (not_not.2 hr), if_pos hb]

/-- One pass that reads a byte (R135, third case). -/
theorem nextBitIn_read {d : Decoder} (hm : d.mask = 0x80) (hr : d.runLength = 0) (hb : d.budget ≠ 0) (s : State)
    (n : Nat) : nextBitIn s (n + 1) d = nextBitIn s n (readStreamByte s d) := by
  rw [nextBitIn, if_neg (not_not.2 hm), if_neg (not_not.2 hr), if_neg hb]

/-- Reading a byte uses up one byte of budget. -/
@[simp] theorem readStreamByte_budget (s : State) (d : Decoder) : (readStreamByte s d).budget = d.budget - 1 := by
  unfold readStreamByte
  simp only
  split <;> rfl

/-- Passes beyond the budget change nothing (R143 f): the loop has ended by then. -/
theorem nextBitIn_enough (s : State) {n : Nat} {d : Decoder} (h : d.budget.toNat < n) :
    nextBitIn s n d = nextBit s d := by
  unfold nextBit
  induction n generalizing d with
  | zero => omega
  | succ n ih =>
    by_cases hm : d.mask = 0x80
    · by_cases hr : d.runLength = 0
      · by_cases hb : d.budget = 0
        · rw [nextBitIn_truncated hm hr hb, nextBitIn_truncated hm hr hb]
        · have hpos : d.budget.toNat ≠ 0 := fun h0 => hb (BitVec.eq_of_toNat_eq (by simpa using h0))
          have hlt := d.budget.isLt
          have hsub : (d.budget - 1).toNat + 1 = d.budget.toNat := by
            have h1 : (1 : BitVec 8).toNat = 1 := rfl
            rw [BitVec.toNat_sub, h1]
            omega
          rw [nextBitIn_read hm hr hb, nextBitIn_read hm hr hb, ih (by rw [readStreamByte_budget]; omega),
            readStreamByte_budget, hsub]
      · rw [nextBitIn_run hm hr, nextBitIn_run hm hr]
    · rw [nextBitIn_literal hm, nextBitIn_literal hm]

/-- A blit keeps whatever of a framebuffer every block fill keeps. -/
theorem blitPixels_keeps {P : Memory → Prop} {s : State} {x y sc : Nat} {v : Byte} {ps : List (Nat × Nat)}
    (hfill : ∀ m, P m → ∀ q ∈ ps, P (Memory.fill m (blockCells s.params x y sc q.1 q.2) v)) {d : Decoder} {m : Memory}
    (hm : P m) : P (blitPixels s x y sc v ps d m).mem := by
  induction ps generalizing d m with
  | nil => exact hm
  | cons q ps ih =>
    obtain ⟨i, j⟩ := q
    have hrest : ∀ m, P m → ∀ q ∈ ps, P (Memory.fill m (blockCells s.params x y sc q.1 q.2) v) :=
      fun m hm q hq => hfill m hm q (by simp [hq])
    unfold blitPixels
    split
    · exact hm
    · exact ih hrest (hfill m hm (i, j) (by simp))
    · exact ih hrest hm

/-- A blit leaves every address outside the blocks of its pixels as it was. -/
theorem blitPixels_read_outside {s : State} {x y sc : Nat} {v : Byte} {ps : List (Nat × Nat)} {d : Decoder} {m : Memory}
    {k : Nat} (h : ∀ q ∈ ps, k ∉ blockCells s.params x y sc q.1 q.2) :
    Memory.read (blitPixels s x y sc v ps d m).mem k = Memory.read m k :=
  blitPixels_keeps (P := fun m' => Memory.read m' k = Memory.read m k)
    (fun m' hm' q hq => by rw [Memory.read_fill, if_neg (h q hq)]; exact hm') rfl

end Sys2Proof.Machine
end

