-- ==== Sys2Proof/Laws/State.lean ====
section
/-! SUPPORT. The small lemmas of the state: one per field and update. -/
namespace Sys2Proof.Machine

section setFb
variable (s : State) (m : Option Memory)

@[simp] theorem setFb_params : (s.setFb m).params = s.params := rfl
@[simp] theorem setFb_fb : (s.setFb m).fb = m := rfl
@[simp] theorem setFb_lb : (s.setFb m).lb = s.lb := rfl
@[simp] theorem setFb_asset : (s.setFb m).asset = s.asset := rfl
@[simp] theorem setFb_cause : (s.setFb m).cause = s.cause := rfl
@[simp] theorem setFb_fcmd : (s.setFb m).fcmd = s.fcmd := rfl
@[simp] theorem setFb_result : (s.setFb m).result = s.result := rfl
@[simp] theorem setFb_trace : (s.setFb m).trace = s.trace := rfl
@[simp] theorem setFb_delivered : (s.setFb m).delivered = s.delivered := rfl
@[simp] theorem setFb_script : (s.setFb m).script = s.script := rfl
@[simp] theorem setFb_pc : (s.setFb m).pc = s.pc := rfl
@[simp] theorem setFb_allocIn : (s.setFb m).allocIn = s.allocIn := rfl
@[simp] theorem setFb_draws : (s.setFb m).draws = s.draws := rfl
@[simp] theorem setFb_reads : (s.setFb m).reads = s.reads := rfl

end setFb

section setResult
variable (s : State) (v : BitVec 16)

@[simp] theorem setResult_params : (s.setResult v).params = s.params := rfl
@[simp] theorem setResult_fb : (s.setResult v).fb = s.fb := rfl
@[simp] theorem setResult_lb : (s.setResult v).lb = s.lb := rfl
@[simp] theorem setResult_asset : (s.setResult v).asset = s.asset := rfl
@[simp] theorem setResult_cause : (s.setResult v).cause = s.cause := rfl
@[simp] theorem setResult_fcmd : (s.setResult v).fcmd = s.fcmd := rfl
@[simp] theorem setResult_result : (s.setResult v).result = v := rfl
@[simp] theorem setResult_trace : (s.setResult v).trace = s.trace := rfl
@[simp] theorem setResult_delivered : (s.setResult v).delivered = s.delivered := rfl
@[simp] theorem setResult_script : (s.setResult v).script = s.script := rfl
@[simp] theorem setResult_pc : (s.setResult v).pc = s.pc := rfl
@[simp] theorem setResult_allocIn : (s.setResult v).allocIn = s.allocIn := rfl
@[simp] theorem setResult_draws : (s.setResult v).draws = s.draws := rfl
@[simp] theorem setResult_reads : (s.setResult v).reads = s.reads := rfl

end setResult

section raise
variable (f : Cause) (cmd : Cmd) (s : State)

@[simp] theorem raise_params : (raise f cmd s).params = s.params := rfl
@[simp] theorem raise_fb : (raise f cmd s).fb = s.fb := rfl
@[simp] theorem raise_lb : (raise f cmd s).lb = s.lb := rfl
@[simp] theorem raise_asset : (raise f cmd s).asset = s.asset := rfl
@[simp] theorem raise_cause : (raise f cmd s).cause = f.code := rfl
@[simp] theorem raise_fcmd : (raise f cmd s).fcmd = cmd := rfl
@[simp] theorem raise_result : (raise f cmd s).result = s.result := rfl
@[simp] theorem raise_trace : (raise f cmd s).trace = s.trace := rfl
@[simp] theorem raise_delivered : (raise f cmd s).delivered = s.delivered := rfl
@[simp] theorem raise_script : (raise f cmd s).script = s.script := rfl
@[simp] theorem raise_pc : (raise f cmd s).pc = s.pc := rfl
@[simp] theorem raise_allocIn : (raise f cmd s).allocIn = s.allocIn := rfl
@[simp] theorem raise_draws : (raise f cmd s).draws = s.draws := rfl
@[simp] theorem raise_reads : (raise f cmd s).reads = s.reads := rfl

end raise

section emit
variable (es : List LineEvent) (s : State)

@[simp] theorem emit_params : (emit es s).params = s.params := rfl
@[simp] theorem emit_fb : (emit es s).fb = s.fb := rfl
@[simp] theorem emit_lb : (emit es s).lb = s.lb := rfl
@[simp] theorem emit_asset : (emit es s).asset = s.asset := rfl
@[simp] theorem emit_cause : (emit es s).cause = s.cause := rfl
@[simp] theorem emit_fcmd : (emit es s).fcmd = s.fcmd := rfl
@[simp] theorem emit_result : (emit es s).result = s.result := rfl
@[simp] theorem emit_trace : (emit es s).trace = s.trace ++ es := rfl
@[simp] theorem emit_delivered : (emit es s).delivered = s.delivered := rfl
@[simp] theorem emit_script : (emit es s).script = s.script := rfl
@[simp] theorem emit_pc : (emit es s).pc = s.pc := rfl
@[simp] theorem emit_allocIn : (emit es s).allocIn = s.allocIn := rfl
@[simp] theorem emit_draws : (emit es s).draws = s.draws := rfl
@[simp] theorem emit_reads : (emit es s).reads = s.reads := rfl

end emit

section afterReset
variable (s : State)

@[simp] theorem afterReset_params : (afterReset s).params = s.params := rfl
@[simp] theorem afterReset_fb : (afterReset s).fb = none := rfl
@[simp] theorem afterReset_lb : (afterReset s).lb = Memory.tabulate (2 * s.params.H) (Config.lineByte s.draws) := rfl
@[simp] theorem afterReset_asset : (afterReset s).asset = s.asset := rfl
@[simp] theorem afterReset_cause : (afterReset s).cause = 0 := rfl
@[simp] theorem afterReset_fcmd : (afterReset s).fcmd = 0 := rfl
@[simp] theorem afterReset_result : (afterReset s).result = 0 := rfl
@[simp] theorem afterReset_trace : (afterReset s).trace = [] := rfl
@[simp] theorem afterReset_delivered : (afterReset s).delivered = s.delivered ++ s.trace := rfl
@[simp] theorem afterReset_script : (afterReset s).script = s.script := rfl
@[simp] theorem afterReset_pc : (afterReset s).pc = 0 := rfl
@[simp] theorem afterReset_allocIn : (afterReset s).allocIn = s.allocIn := rfl
@[simp] theorem afterReset_draws : (afterReset s).draws = s.draws + 1 := rfl
@[simp] theorem afterReset_reads : (afterReset s).reads = s.reads := rfl

end afterReset

section advance
variable (s : State) (rest : List HostAction)

@[simp] theorem advance_params : (advance s rest).params = s.params := rfl
@[simp] theorem advance_fb : (advance s rest).fb = s.fb := rfl
@[simp] theorem advance_lb : (advance s rest).lb = s.lb := rfl
@[simp] theorem advance_asset : (advance s rest).asset = s.asset := rfl
@[simp] theorem advance_cause : (advance s rest).cause = s.cause := rfl
@[simp] theorem advance_fcmd : (advance s rest).fcmd = s.fcmd := rfl
@[simp] theorem advance_result : (advance s rest).result = s.result := rfl
@[simp] theorem advance_trace : (advance s rest).trace = s.trace := rfl
@[simp] theorem advance_delivered : (advance s rest).delivered = s.delivered := rfl
@[simp] theorem advance_script : (advance s rest).script = rest := rfl
@[simp] theorem advance_pc : (advance s rest).pc = s.pc := rfl
@[simp] theorem advance_allocIn : (advance s rest).allocIn = s.allocIn := rfl
@[simp] theorem advance_draws : (advance s rest).draws = s.draws := rfl
@[simp] theorem advance_reads : (advance s rest).reads = s.reads := rfl

end advance

section countWord
variable (s : State)

@[simp] theorem countWord_params : (countWord s).params = s.params := rfl
@[simp] theorem countWord_fb : (countWord s).fb = s.fb := rfl
@[simp] theorem countWord_lb : (countWord s).lb = s.lb := rfl
@[simp] theorem countWord_asset : (countWord s).asset = s.asset := rfl
@[simp] theorem countWord_cause : (countWord s).cause = s.cause := rfl
@[simp] theorem countWord_fcmd : (countWord s).fcmd = s.fcmd := rfl
@[simp] theorem countWord_result : (countWord s).result = s.result := rfl
@[simp] theorem countWord_trace : (countWord s).trace = s.trace := rfl
@[simp] theorem countWord_delivered : (countWord s).delivered = s.delivered := rfl
@[simp] theorem countWord_script : (countWord s).script = s.script := rfl
@[simp] theorem countWord_pc : (countWord s).pc = s.pc + 1 := rfl
@[simp] theorem countWord_allocIn : (countWord s).allocIn = s.allocIn := rfl
@[simp] theorem countWord_draws : (countWord s).draws = s.draws := rfl
@[simp] theorem countWord_reads : (countWord s).reads = s.reads := rfl

end countWord

section readStatusPort
variable (n : Nat) (s : State)

@[simp] theorem readStatusPort_params : (readStatusPort n s).params = s.params := rfl
@[simp] theorem readStatusPort_fb : (readStatusPort n s).fb = s.fb := rfl
@[simp] theorem readStatusPort_lb : (readStatusPort n s).lb = s.lb := rfl
@[simp] theorem readStatusPort_asset : (readStatusPort n s).asset = s.asset := rfl
@[simp] theorem readStatusPort_cause : (readStatusPort n s).cause = s.cause := rfl
@[simp] theorem readStatusPort_fcmd : (readStatusPort n s).fcmd = s.fcmd := rfl
@[simp] theorem readStatusPort_result : (readStatusPort n s).result = s.result := rfl
@[simp] theorem readStatusPort_trace : (readStatusPort n s).trace = s.trace := rfl
@[simp] theorem readStatusPort_delivered : (readStatusPort n s).delivered = s.delivered := rfl
@[simp] theorem readStatusPort_script : (readStatusPort n s).script = s.script := rfl
@[simp] theorem readStatusPort_pc : (readStatusPort n s).pc = s.pc := rfl
@[simp] theorem readStatusPort_allocIn : (readStatusPort n s).allocIn = s.allocIn := rfl
@[simp] theorem readStatusPort_draws : (readStatusPort n s).draws = s.draws := rfl
@[simp] theorem readStatusPort_reads : (readStatusPort n s).reads = s.reads ++ [(n, s.statusRegister n)] := rfl

end readStatusPort

section placeWord
variable (s : State) (w : Cmd)

@[simp] theorem placeWord_params : (placeWord s w).params = s.params := rfl
@[simp] theorem placeWord_fb : (placeWord s w).fb = s.fb := rfl
@[simp] theorem placeWord_lb : (placeWord s w).lb = s.lb := rfl
@[simp] theorem placeWord_asset : (placeWord s w).asset = s.asset := rfl
@[simp] theorem placeWord_cause : (placeWord s w).cause = s.cause := rfl
@[simp] theorem placeWord_fcmd : (placeWord s w).fcmd = s.fcmd := rfl
@[simp] theorem placeWord_result : (placeWord s w).result = s.result := rfl
@[simp] theorem placeWord_trace : (placeWord s w).trace = s.trace := rfl
@[simp] theorem placeWord_delivered : (placeWord s w).delivered = s.delivered := rfl
@[simp] theorem placeWord_script : (placeWord s w).script = .command w :: s.script := rfl
@[simp] theorem placeWord_pc : (placeWord s w).pc = s.pc := rfl
@[simp] theorem placeWord_allocIn : (placeWord s w).allocIn = s.allocIn := rfl
@[simp] theorem placeWord_draws : (placeWord s w).draws = s.draws := rfl
@[simp] theorem placeWord_reads : (placeWord s w).reads = s.reads := rfl

end placeWord

section drawAlloc
variable (s : State)

@[simp] theorem drawAlloc_params : (drawAlloc s).2.params = s.params := by unfold drawAlloc; split <;> rfl
@[simp] theorem drawAlloc_fb : (drawAlloc s).2.fb = s.fb := by unfold drawAlloc; split <;> rfl
@[simp] theorem drawAlloc_lb : (drawAlloc s).2.lb = s.lb := by unfold drawAlloc; split <;> rfl
@[simp] theorem drawAlloc_asset : (drawAlloc s).2.asset = s.asset := by unfold drawAlloc; split <;> rfl
@[simp] theorem drawAlloc_cause : (drawAlloc s).2.cause = s.cause := by unfold drawAlloc; split <;> rfl
@[simp] theorem drawAlloc_fcmd : (drawAlloc s).2.fcmd = s.fcmd := by unfold drawAlloc; split <;> rfl
@[simp] theorem drawAlloc_result : (drawAlloc s).2.result = s.result := by unfold drawAlloc; split <;> rfl
@[simp] theorem drawAlloc_trace : (drawAlloc s).2.trace = s.trace := by unfold drawAlloc; split <;> rfl
@[simp] theorem drawAlloc_delivered : (drawAlloc s).2.delivered = s.delivered := by unfold drawAlloc; split <;> rfl
@[simp] theorem drawAlloc_script : (drawAlloc s).2.script = s.script := by unfold drawAlloc; split <;> rfl
@[simp] theorem drawAlloc_pc : (drawAlloc s).2.pc = s.pc := by unfold drawAlloc; split <;> rfl
@[simp] theorem drawAlloc_reads : (drawAlloc s).2.reads = s.reads := by unfold drawAlloc; split <;> rfl

end drawAlloc

/-- A framebuffer just set holds each byte of its contents. -/
@[simp] theorem setFb_some_cell (s : State) (m : Memory) (k : Nat) :
    (s.setFb (some m)).cell k = some (Memory.read m k) := rfl

/-- A released framebuffer has no contents (R23). -/
@[simp] theorem setFb_none_cell (s : State) (k : Nat) : (s.setFb none).cell k = none := rfl

@[simp] theorem setFb_assetRead (s : State) (m : Option Memory) (k : Nat) : (s.setFb m).assetRead k = s.assetRead k := rfl

@[simp] theorem raise_cell (f : Cause) (cmd : Cmd) (s : State) (k : Nat) : (raise f cmd s).cell k = s.cell k := rfl

end Sys2Proof.Machine
end

