-- ==== Sys2Proof/Laws/Ops.lean ====
section
/-! SUPPORT. What each shared operation can do, said once. -/
namespace Sys2Proof.Machine

/-- A faulted machine discards what is accepted (R198). -/
theorem accept_discards {s : State} (h : s.cause ≠ 0) (t : State) : accept s t = s := if_neg h

/-- A machine without a fault executes what is accepted (R198). -/
theorem accept_executes {s : State} (h : s.cause = 0) (t : State) : accept s t = t := if_pos h

/-- Acceptance discards or executes. -/
theorem accept_cases (s t : State) : (s.cause ≠ 0 ∧ accept s t = s) ∨ (s.cause = 0 ∧ accept s t = t) := by
  by_cases h : s.cause = 0
  · exact .inr ⟨h, accept_executes h t⟩
  · exact .inl ⟨h, accept_discards h t⟩

/-- A check that holds goes on. -/
theorem check_passes {ok : Prop} [Decidable ok] (h : ok) (f : Cause) (cmd : Cmd) (s t : State) :
    check ok f cmd s t = t := if_pos h

/-- A check that fails takes its fault. -/
theorem check_faults {ok : Prop} [Decidable ok] (h : ¬ok) (f : Cause) (cmd : Cmd) (s t : State) :
    check ok f cmd s t = raise f cmd s := if_neg h

/-- A check goes on or takes its fault. -/
theorem check_cases (ok : Prop) [Decidable ok] (f : Cause) (cmd : Cmd) (s t : State) :
    (ok ∧ check ok f cmd s t = t) ∨ (¬ok ∧ check ok f cmd s t = raise f cmd s) := by
  by_cases h : ok
  · exact .inl ⟨h, check_passes h f cmd s t⟩
  · exact .inr ⟨h, check_faults h f cmd s t⟩

/-- With a framebuffer held the command goes on with its contents. -/
theorem whenHeld_held {s : State} {m : Memory} (h : s.fb = some m) (cmd : Cmd) (go : Memory → State) :
    whenHeld cmd s go = go m := by rw [whenHeld, h]

/-- With none held the command takes FbAbsent (R193). -/
theorem whenHeld_absent {s : State} (h : s.fb = none) (cmd : Cmd) (go : Memory → State) :
    whenHeld cmd s go = raise .fbAbsent cmd s := by rw [whenHeld, h]

/-- The framebuffer check goes on or takes FbAbsent. -/
theorem whenHeld_cases (cmd : Cmd) (s : State) (go : Memory → State) :
    (s.fb = none ∧ whenHeld cmd s go = raise .fbAbsent cmd s) ∨ ∃ m, s.fb = some m ∧ whenHeld cmd s go = go m := by
  cases h : s.fb with
  | none => exact .inl ⟨rfl, whenHeld_absent h cmd go⟩
  | some m => exact .inr ⟨m, rfl, whenHeld_held h cmd go⟩

/-- A listed answer is the one drawn. -/
theorem drawAlloc_listed {s : State} {b : Bool} {rest : List Bool} (h : s.allocIn = b :: rest) :
    drawAlloc s = (b, { s with allocIn := rest }) := by rw [drawAlloc, h]

/-- With no answer listed the answer is a free value. -/
theorem drawAlloc_free {s : State} (h : s.allocIn = []) :
    drawAlloc s = (Config.allocOk s.draws, { s with draws := s.draws + 1 }) := by rw [drawAlloc, h]

/-- An asset byte is rewritten where it exists; elsewhere the machine stops. -/
theorem rewriteAsset_cases (a : Nat) (b : Byte) (s : State) :
    (a < s.params.assetSize ∧ rewriteAsset a b s = .next { s with asset := Memory.write s.asset a b }) ∨
      (¬a < s.params.assetSize ∧ rewriteAsset a b s = .fault .assetAddressAbsent) := by
  by_cases h : a < s.params.assetSize
  · exact .inl ⟨h, if_pos h⟩
  · exact .inr ⟨h, if_neg h⟩

/-- Every code a fault writes is legal and not 0 (R190). -/
theorem Cause.code_ne_zero (f : Cause) : f.code ≠ 0 := by cases f <;> decide

end Sys2Proof.Machine
end

