-- ==== Sys2Proof/Laws/Meanings.lean ====
section
/-! SUPPORT. What each command can do, said once: the cases of its meaning on a machine without a fault, and the discard on
a faulted one. -/
namespace Sys2Proof.Machine

/-- A faulted machine discards every command (R198). -/
theorem exec_discards {s : State} (h : s.cause ≠ 0) (i : Instr) : exec i s = .next s := by
  cases i <;> exact congrArg Host.Outcome.next (accept_discards h _)

/-- PALQ on a machine without a fault (R112). -/
theorem execPalq_eq {s : State} (h : s.cause = 0) (c : Colour) :
    execPalq c s = .next (s.setResult (color s.params c)) := congrArg Host.Outcome.next (accept_executes h _)

/-- FBINIT on a machine without a fault (R161). -/
theorem execFbinit_cases {s : State} (h : s.cause = 0) :
    (s.fb ≠ none ∧ execFbinit s = .next (raise .fbHeld (encode .fbinit) s)) ∨
    (s.fb = none ∧ (drawAlloc s).1 = true ∧ execFbinit s = .next ((drawAlloc s).2.setFb (some zeroed))) ∨
    (s.fb = none ∧ (drawAlloc s).1 = false ∧
      execFbinit s = .next (raise .allocationFailure (encode .fbinit) (drawAlloc s).2)) := by
  unfold execFbinit
  rw [accept_executes h]
  by_cases hf : s.fb = none
  · rw [check_passes hf]
    cases ha : (drawAlloc s).1 with
    | true => exact .inr (.inl ⟨hf, rfl, congrArg _ (check_passes ha ..)⟩)
    | false => exact .inr (.inr ⟨hf, rfl, congrArg _ (check_faults (ok := (drawAlloc s).1 = true) (by rw [ha]; decide) ..)⟩)
  · exact .inl ⟨hf, congrArg _ (check_faults hf ..)⟩

section needsFramebuffer
variable {s : State} (h : s.cause = 0)

/-- A command that needs a framebuffer takes FbAbsent when none is held (R193). -/
theorem exec_absent (i : Instr) (hf : s.fb = none) (hi : i ≠ .fbinit) (hp : ∀ c, i ≠ .palq c) (h : s.cause = 0) :
    exec i s = .next (raise .fbAbsent (encode i) s) := by
  cases i with
  | fbinit => exact absurd rfl hi
  | palq c => exact absurd rfl (hp c)
  | fbfree => exact congrArg _ ((accept_executes h _).trans (whenHeld_absent hf ..))
  | fill y h' c => exact congrArg _ ((accept_executes h _).trans (whenHeld_absent hf ..))
  | glyph x y c sc a => exact congrArg _ ((accept_executes h _).trans (whenHeld_absent hf ..))
  | icon x y c sc a => exact congrArg _ ((accept_executes h _).trans (whenHeld_absent hf ..))
  | scanout => exact congrArg _ ((accept_executes h _).trans (whenHeld_absent hf ..))
  | fbrd x y => exact congrArg _ ((accept_executes h _).trans (whenHeld_absent hf ..))

variable {m : Memory} (hm : s.fb = some m)
include h hm

/-- FBFREE with a framebuffer held (R162). -/
theorem execFbfree_held : execFbfree s = .next (s.setFb none) :=
  congrArg _ ((accept_executes h _).trans (whenHeld_held hm ..))

/-- SCANOUT with a framebuffer held (R184). -/
theorem execScanout_held : execScanout s =
    .next { emit (scanLines s.params m) s with lb := bufferAfter (scanLines s.params m) s.lb } :=
  congrArg _ ((accept_executes h _).trans (whenHeld_held hm ..))

/-- FILL with a framebuffer held (R163). -/
theorem execFill_held (y h' : Half) (c : Colour) :
    (rowsInside s.params y.toNat h'.toNat ∧
      execFill y h' c s = .next (s.setFb (some (Memory.fill m (barCells s.params y.toNat h'.toNat) (paint c))))) ∨
    (¬rowsInside s.params y.toNat h'.toNat ∧
      execFill y h' c s = .next (raise .outOfBounds (encode (.fill y h' c)) s)) := by
  unfold execFill
  rw [accept_executes h, whenHeld_held hm]
  rcases check_cases (rowsInside s.params y.toNat h'.toNat) .outOfBounds (encode (.fill y h' c)) s
    (s.setFb (some (Memory.fill m (barCells s.params y.toNat h'.toNat) (paint c)))) with ⟨hc, e⟩ | ⟨hc, e⟩
  · exact .inl ⟨hc, congrArg _ e⟩
  · exact .inr ⟨hc, congrArg _ e⟩

/-- FBRD with a framebuffer held (R168). -/
theorem execFbrd_held (x y : Half) :
    (pixelInside s.params x.toNat y.toNat ∧ execFbrd x y s =
      .next (s.setResult ((Memory.read m (pix s.params x.toNat y.toNat)).setWidth 16))) ∨
    (¬pixelInside s.params x.toNat y.toNat ∧
      execFbrd x y s = .next (raise .outOfBounds (encode (.fbrd x y)) s)) := by
  unfold execFbrd
  rw [accept_executes h, whenHeld_held hm]
  rcases check_cases (pixelInside s.params x.toNat y.toNat) .outOfBounds (encode (.fbrd x y)) s
    (s.setResult ((Memory.read m (pix s.params x.toNat y.toNat)).setWidth 16)) with ⟨hc, e⟩ | ⟨hc, e⟩
  · exact .inl ⟨hc, congrArg _ e⟩
  · exact .inr ⟨hc, congrArg _ e⟩

/-- GLYPH with a framebuffer held: its faults in their order, or the blit (R121, R122). -/
theorem execGlyph_held (x y : Half) (c : Colour) (sc : Byte) (a : Half) :
    (¬scaleLegal sc ∧ execGlyph x y c sc a s = .next (raise .illegalScale (encode (.glyph x y c sc a)) s)) ∨
    (scaleLegal sc ∧ ¬assetInside s.params a.toNat 6 ∧
      execGlyph x y c sc a s = .next (raise .assetOutOfRange (encode (.glyph x y c sc a)) s)) ∨
    (scaleLegal sc ∧ assetInside s.params a.toNat 6 ∧
      ¬rectInside s.params x.toNat y.toNat (6 * sc.toNat) (8 * sc.toNat) ∧
      execGlyph x y c sc a s = .next (raise .outOfBounds (encode (.glyph x y c sc a)) s)) ∨
    (scaleLegal sc ∧ assetInside s.params a.toNat 6 ∧
      rectInside s.params x.toNat y.toNat (6 * sc.toNat) (8 * sc.toNat) ∧
      execGlyph x y c sc a s =
        .next (s.setFb (some (Memory.fill m (glyphCells s x.toNat y.toNat sc.toNat a.toNat) (paint c))))) := by
  unfold execGlyph
  rw [accept_executes h, whenHeld_held hm]
  by_cases h1 : scaleLegal sc
  · by_cases h2 : assetInside s.params a.toNat 6
    · by_cases h3 : rectInside s.params x.toNat y.toNat (6 * sc.toNat) (8 * sc.toNat)
      · rw [check_passes h1, check_passes h2, check_passes h3]
        exact .inr (.inr (.inr ⟨h1, h2, h3, rfl⟩))
      · rw [check_passes h1, check_passes h2, check_faults h3]
        exact .inr (.inr (.inl ⟨h1, h2, h3, rfl⟩))
    · rw [check_passes h1, check_faults h2]
      exact .inr (.inl ⟨h1, h2, rfl⟩)
  · rw [check_faults h1]
    exact .inl ⟨h1, rfl⟩

/-- ICON with a framebuffer held: its faults in their order, or the decode and blit, whole or truncated (R139, R140). -/
theorem execIcon_held (x y : Half) (c : Colour) (sc : Byte) (a : Half) {w h' len : Byte} {b : Blit}
    (hw : w = s.assetRead a.toNat) (hh : h' = s.assetRead (a.toNat + 1)) (hl : len = s.assetRead (a.toNat + 2))
    (hb : b = blitPixels s x.toNat y.toNat sc.toNat (paint c) (columnMajor w.toNat h'.toNat) (decoderStart a len) m) :
    (¬scaleLegal sc ∧ execIcon x y c sc a s = .next (raise .illegalScale (encode (.icon x y c sc a)) s)) ∨
    (scaleLegal sc ∧ ¬(assetInside s.params a.toNat 3 ∧ assetInside s.params a.toNat (3 + len.toNat)) ∧
      execIcon x y c sc a s = .next (raise .assetOutOfRange (encode (.icon x y c sc a)) s)) ∨
    (scaleLegal sc ∧ assetInside s.params a.toNat (3 + len.toNat) ∧
      ¬rectInside s.params x.toNat y.toNat (w.toNat * sc.toNat) (h'.toNat * sc.toNat) ∧
      execIcon x y c sc a s = .next (raise .outOfBounds (encode (.icon x y c sc a)) s)) ∨
    (scaleLegal sc ∧ assetInside s.params a.toNat (3 + len.toNat) ∧
      rectInside s.params x.toNat y.toNat (w.toNat * sc.toNat) (h'.toNat * sc.toNat) ∧
      ((b.truncated = false ∧ execIcon x y c sc a s = .next (s.setFb (some b.mem))) ∨
       (b.truncated = true ∧
         execIcon x y c sc a s = .next (raise .iconTruncated (encode (.icon x y c sc a)) (s.setFb (some b.mem)))))) := by
  subst hw hh hl hb
  unfold execIcon
  rw [accept_executes h, whenHeld_held hm]
  by_cases h1 : scaleLegal sc
  · rw [check_passes h1]
    by_cases h2 : assetInside s.params a.toNat 3
    · rw [check_passes h2]
      by_cases h3 : assetInside s.params a.toNat (3 + (s.assetRead (a.toNat + 2)).toNat)
      · by_cases h4 : rectInside s.params x.toNat y.toNat ((s.assetRead a.toNat).toNat * sc.toNat)
            ((s.assetRead (a.toNat + 1)).toNat * sc.toNat)
        · refine .inr (.inr (.inr ⟨h1, h3, h4, ?_⟩))
          simp only [check_passes h3, check_passes h4]
          cases ht : (blitPixels s x.toNat y.toNat sc.toNat (paint c) (columnMajor (s.assetRead a.toNat).toNat
              (s.assetRead (a.toNat + 1)).toNat) (decoderStart a (s.assetRead (a.toNat + 2))) m).truncated with
          | false => exact .inl ⟨rfl, by rw [check_passes rfl]⟩
          | true => exact .inr ⟨rfl, by rw [check_faults (by decide)]⟩
        · refine .inr (.inr (.inl ⟨h1, h3, h4, ?_⟩))
          simp only [check_passes h3, check_faults h4]
      · refine .inr (.inl ⟨h1, fun hc => h3 hc.2, ?_⟩)
        simp only [check_faults h3]
    · rw [check_faults h2]
      exact .inr (.inl ⟨h1, fun hc => h2 hc.1, rfl⟩)
  · rw [check_faults h1]
    exact .inl ⟨h1, rfl⟩

end needsFramebuffer

end Sys2Proof.Machine
end

