-- ==== Sys2Proof/Laws/PerInstr.lean ====
section
/-! SUPPORT. Statements for every command, one lemma per constructor. -/
namespace Sys2Proof.Laws.EncodeSpellsRow

/-- The word a command encodes to spells the command's own row of R84. -/
def Statement (i : Sys2Proof.Instr) : Prop := (Sys2Proof.rowOf i).spells (Sys2Proof.encode i) = true

theorem fbinit : Statement .fbinit := rfl

theorem fbfree : Statement .fbfree := rfl

theorem scanout : Statement .scanout := rfl

theorem fill (y h : Half) (c : Colour) : Statement (.fill y h c) := by
  have hm : (rowOf (.fill y h c)).mask = pack 0xF 0 0xFF 0 0 0xFFFF := rfl
  have hp : (rowOf (.fill y h c)).pattern = pack 0x3 0 0 0 0 0 := rfl
  simp [Statement, Row.spells, encode, hm, hp, pack_and]

theorem glyph (x y : Half) (c : Colour) (sc : Byte) (a : Half) : Statement (.glyph x y c sc a) := by
  have hm : (rowOf (.glyph x y c sc a)).mask = pack 0xF 0 0 0 0 0 := rfl
  have hp : (rowOf (.glyph x y c sc a)).pattern = pack 0x4 0 0 0 0 0 := rfl
  simp [Statement, Row.spells, encode, hm, hp, pack_and]

theorem icon (x y : Half) (c : Colour) (sc : Byte) (a : Half) : Statement (.icon x y c sc a) := by
  have hm : (rowOf (.icon x y c sc a)).mask = pack 0xF 0 0 0 0 0 := rfl
  have hp : (rowOf (.icon x y c sc a)).pattern = pack 0x5 0 0 0 0 0 := rfl
  simp [Statement, Row.spells, encode, hm, hp, pack_and]

theorem fbrd (x y : Half) : Statement (.fbrd x y) := by
  have hm : (rowOf (.fbrd x y)).mask = pack 0xF 0xF 0xFF 0xFFFF 0 0 := rfl
  have hp : (rowOf (.fbrd x y)).pattern = pack 0x7 0 0 0 0 0 := rfl
  simp [Statement, Row.spells, encode, hm, hp, pack_and]

theorem palq (c : Colour) : Statement (.palq c) := by
  have hm : (rowOf (.palq c)).mask = pack 0xF 0 0xFF 0xFFFF 0xFFFF 0xFFFF := rfl
  have hp : (rowOf (.palq c)).pattern = pack 0x8 0 0 0 0 0 := rfl
  simp [Statement, Row.spells, encode, hm, hp, pack_and]

end Sys2Proof.Laws.EncodeSpellsRow
end

