-- ==== Sys2Proof/Laws/Run.lean ====
section
/-! SUPPORT. What a step takes off the host's script, and how the end of a run follows from it. -/
namespace Sys2Proof.Machine

/-- A step performs the host's next action. -/
theorem step_performs {s : State} {act : HostAction} {rest : List HostAction} (h : s.script = act :: rest) :
    step s = perform act (advance s rest) := by simp only [step, runNext, h]

/-- An idle host leaves the machine alone, or the step performs the next action. -/
theorem step_cases (s : State) :
    (s.script = [] ∧ step s = .next s) ∨
      ∃ act rest, s.script = act :: rest ∧ step s = perform act (advance s rest) := by
  cases h : s.script with
  | nil => exact .inl ⟨rfl, by simp only [step, runNext, h]⟩
  | cons act rest => exact .inr ⟨act, rest, rfl, step_performs h⟩

/-- A run whose first step answers a next state goes on from it. -/
theorem run_next (M : Host.Core) {k : Nat} {s t : M.State} (h : M.step s = .next t) : M.run (k + 1) s = M.run k t := by
  rw [Host.Core.run, h]

@[simp] theorem wordsBeforeReset_nil : wordsBeforeReset [] = [] := rfl
@[simp] theorem wordsBeforeReset_command (w : Cmd) (rest : List HostAction) :
    wordsBeforeReset (.command w :: rest) = w :: wordsBeforeReset rest := rfl
@[simp] theorem wordsBeforeReset_reset (rest : List HostAction) : wordsBeforeReset (.reset :: rest) = [] := rfl
@[simp] theorem wordsBeforeReset_resetDuring (w : Cmd) (k : Nat) (rest : List HostAction) :
    wordsBeforeReset (.resetDuring w k :: rest) = [w] := rfl
@[simp] theorem wordsBeforeReset_writeAsset (a : Nat) (b : Byte) (rest : List HostAction) :
    wordsBeforeReset (.writeAsset a b :: rest) = wordsBeforeReset rest := rfl
@[simp] theorem wordsBeforeReset_readStatus (n : Nat) (rest : List HostAction) :
    wordsBeforeReset (.readStatus n :: rest) = wordsBeforeReset rest := rfl

/-- A program loaded as it stands asserts no `rst`: all its words come before the next one. -/
@[simp] theorem wordsBeforeReset_loaded (P : List Cmd) : wordsBeforeReset (P.map .command) = P := by
  induction P with
  | nil => rfl
  | cons w P ih => simp only [List.map_cons, wordsBeforeReset_command, ih]

/-- A machine in a run of `P` that has ended has no word left before the next `rst` (R227). -/
theorem ended_leaves_no_word {P : List Cmd} {s : State} (hf : s.follows P) (he : s.ended P) :
    wordsBeforeReset s.script = [] := by
  rw [State.follows, he, List.drop_length, List.prefix_nil] at hf
  exact hf

/-- A machine whose next action is a word is at that word of `P`, and the run is not over (R21). -/
theorem follows_command {P : List Cmd} {s : State} {w : Cmd} {rest : List HostAction} (hf : s.follows P)
    (h : s.script = .command w :: rest) : P[s.pc]? = some w ∧ wordsBeforeReset rest <+: P.drop (s.pc + 1) := by
  rw [State.follows, h, wordsBeforeReset_command] at hf
  obtain ⟨t, ht⟩ := hf
  constructor
  · have := congrArg List.head? ht
    simpa [List.head?_drop] using this.symm
  · have := congrArg List.tail ht
    rw [List.tail_drop] at this
    exact ⟨t, this⟩

end Sys2Proof.Machine
end

