-- ==== Sys2Proof/Tests/Slice0.lean ====
section
/-! SUPPORT. The model's own tests, their expected results from spec/95_test_vectors.md and spec/30_encoding.md R92, and for
every statement with hypotheses a state and operands that meet them. -/
namespace Sys2Proof.Tests
open Sys2Proof.Machine

/-! Fixtures (spec/95_test_vectors.md section 0). -/

/-- The test palette. -/
def palette : Vector Rgb565 16 :=
  #v[0x00A0, 0x01A1, 0x02A2, 0x03A3, 0x04A4, 0x05A5, 0x06A6, 0x07A7, 0x08A8, 0x09A9, 0x0AAA, 0x0BAB, 0x0CAC, 0x0DAD,
     0x0EAE, 0x0FAF]

/-- The test asset image. -/
def assets : Memory :=
  [(0x00, 0x7E), (0x01, 0x11), (0x02, 0x11), (0x03, 0x11), (0x04, 0x7E), (0x06, 0x01), (0x0B, 0x80)] ++
  [(0x10, 0x03), (0x11, 0x05), (0x12, 0x02), (0x13, 0x55), (0x14, 0xC8)] ++
  [(0x18, 0x01), (0x19, 0x35), (0x1A, 0x02), (0x1B, 0xB0), (0x1C, 0xC5)] ++
  [(0x20, 0x02), (0x21, 0x04), (0x22, 0x01), (0x23, 0x7F)] ++
  [(0x28, 0x02), (0x29, 0x02), (0x2A, 0x03), (0x2B, 0x80), (0x2C, 0xC2), (0x2D, 0x05)] ++
  [(0x31, 0x07), (0x34, 0x02), (0x35, 0x02), (0x38, 0x01), (0x39, 0x01), (0x3A, 0x09)]

/-- A `w` by `h` machine with the test palette and assets, no fault, and the framebuffer given. -/
def bench (w h : Nat) (fb : Option Memory) : State :=
  { State.reset with
    params := ⟨BitVec.ofNat 16 w, BitVec.ofNat 16 h, palette, 64, 0x100⟩
    fb := fb
    lb := []
    asset := assets }

/-- The state after one step that issues word `w` (the state itself, were the step to stop). -/
def after (s : State) (w : Nat) : State :=
  match step (s.withFetchWord 64 w) with
  | .next t => t
  | .fault _ => s
  | .refused _ => s

/-- The state after one host action. -/
def acted (s : State) (act : HostAction) : State :=
  match step { s with script := [act] } with
  | .next t => t
  | .fault _ => s
  | .refused _ => s

/-! Well-formedness: an ill-formed term for each check. -/

/-- R86 and R85, vectors E11 to E18: reserved opcodes, then a non-zero reserved field of each command that has one. -/
theorem test_illegal_words_are_ill_formed :
    wellFormedWord 0x0000000000000000#64 = false ∧ wellFormedWord 0x9000000000000000#64 = false ∧
    wellFormedWord 0xF000000000000000#64 = false ∧ wellFormedWord 0x1000000000000001#64 = false ∧
    wellFormedWord 0x2000000000010000#64 = false ∧ wellFormedWord 0x3201000300000000#64 = false ∧
    wellFormedWord 0x3200000300000001#64 = false ∧ wellFormedWord 0x7100000000080003#64 = false ∧
    wellFormedWord 0x8400000000010000#64 = false ∧ wellFormedWord 0x6000000100000000#64 = false := by decide

/-- R92: the legal words are well-formed. -/
theorem test_legal_words_are_well_formed :
    wellFormedWord 0x1000000000000000#64 = true ∧ wellFormedWord 0x33000003000D0000#64 = true ∧
    wellFormedWord 0x4FFFFFFFFFFFFFFF#64 = true ∧ wellFormedWord 0x7000000000080003#64 = true := by decide

/-- R90: an operand one above its field, for each field of each command. -/
theorem test_misfits_are_refused :
    (AsmLine.fill 65536 0 0).fits = false ∧ (AsmLine.fill 0 65536 0).fits = false ∧ (AsmLine.fill 0 0 16).fits = false ∧
    (AsmLine.glyph 65536 0 0 1 0).fits = false ∧ (AsmLine.glyph 0 65536 0 1 0).fits = false ∧
    (AsmLine.glyph 0 0 16 1 0).fits = false ∧ (AsmLine.glyph 0 0 0 256 0).fits = false ∧
    (AsmLine.glyph 0 0 0 1 65536).fits = false ∧ (AsmLine.icon 65536 0 0 1 0).fits = false ∧
    (AsmLine.icon 0 65536 0 1 0).fits = false ∧ (AsmLine.icon 0 0 16 1 0).fits = false ∧
    (AsmLine.icon 0 0 0 256 0).fits = false ∧ (AsmLine.icon 0 0 0 1 65536).fits = false ∧
    (AsmLine.fbrd 65536 0).fits = false ∧ (AsmLine.fbrd 0 65536).fits = false ∧ (AsmLine.palq 16).fits = false := by decide

/-- R90: the largest operands fit. -/
theorem test_largest_operands_fit :
    (AsmLine.fill 65535 65535 15).fits = true ∧ (AsmLine.glyph 65535 65535 15 255 65535).fits = true := by decide

/-! Decoding: words written out from R81, field by field (R92, vectors E1 to E18). -/

/-- `0001` and sixty zeros. -/
theorem test_decode_fbinit : decode (0b0001#4 ++ 0#4 ++ 0#8 ++ 0#16 ++ 0#16 ++ 0#16 : BitVec 64) = .ok .fbinit := by decide

/-- `0010` and sixty zeros. -/
theorem test_decode_fbfree : decode (0b0010#4 ++ 0#4 ++ 0#8 ++ 0#16 ++ 0#16 ++ 0#16 : BitVec 64) = .ok .fbfree := by decide

/-- E4: `FILL 13, 3, 3`: op 3, c 3, a 3, y 0x000D. -/
theorem test_decode_fill :
    decode (0b0011#4 ++ 0b0011#4 ++ 0#8 ++ 0x0003#16 ++ 0x000D#16 ++ 0#16 : BitVec 64) = .ok (.fill 13 3 3) := by decide

/-- E6: `GLYPH 2, 0, 7, 2, 6`. -/
theorem test_decode_glyph :
    decode (0b0100#4 ++ 0b0111#4 ++ 0x02#8 ++ 0x0006#16 ++ 0x0000#16 ++ 0x0002#16 : BitVec 64) =
      .ok (.glyph 2 0 7 2 6) := by decide

/-- E7: `ICON 1, 1, 6, 1, 0x20`, with `y` set apart from `x`. -/
theorem test_decode_icon :
    decode (0b0101#4 ++ 0b0110#4 ++ 0x01#8 ++ 0x0020#16 ++ 0x0009#16 ++ 0x0001#16 : BitVec 64) =
      .ok (.icon 1 9 6 1 0x20) := by decide

/-- `0110` and sixty zeros. -/
theorem test_decode_scanout : decode (0b0110#4 ++ 0#4 ++ 0#8 ++ 0#16 ++ 0#16 ++ 0#16 : BitVec 64) = .ok .scanout := by decide

/-- E8: `FBRD 3, 8`. -/
theorem test_decode_fbrd :
    decode (0b0111#4 ++ 0#4 ++ 0#8 ++ 0#16 ++ 0x0008#16 ++ 0x0003#16 : BitVec 64) = .ok (.fbrd 3 8) := by decide

/-- E9: `PALQ 4`. -/
theorem test_decode_palq :
    decode (0b1000#4 ++ 0b0100#4 ++ 0#8 ++ 0#16 ++ 0#16 ++ 0#16 : BitVec 64) = .ok (.palq 4) := by decide

/-- E10 and the opcode table's numbering: bit 0 of the word is bit 0 of field `x`. -/
theorem test_decode_table_word :
    decodeTableWord 64 0x4FFFFFFFFFFFFFFF = some (.glyph 65535 65535 15 255 65535) ∧
    decodeTableWord 64 0x7000000000080003 = some (.fbrd 3 8) ∧ decodeTableWord 64 0x9000000000000000 = none := by decide

/-- E12, E16: illegal words are refused by name. -/
theorem test_decode_illegal :
    decode 0xF000000000000000#64 = .error .reservedOpcode ∧ decode 0x7100000000080003#64 = .error .reservedField := by
  decide

/-! One step on a small machine (spec/95_test_vectors.md section 2). -/

/-- F1: after FBINIT with `alloc_ok = 1` STATUS is 0x02 and cells read 0. -/
theorem test_fbinit_holds :
    let t := after { bench 16 16 none with allocIn := [true] } 0x1000000000000000
    t.status = 0x02 ∧ t.cell 0 = some 0 ∧ t.cell 255 = some 0 ∧ t.pc = 1 := by decide

/-- P4: FBINIT with `alloc_ok = 0`; F2: FBINIT while held. -/
theorem test_fbinit_faults :
    (let t := after { bench 4 5 none with allocIn := [false] } 0x1000000000000000
     t.status = 0x04 ∧ t.cause = 2 ∧ t.fcmd = 0x1000000000000000#64 ∧ t.fb = none) ∧
    (let t := after (bench 16 16 (some [(3, 1)])) 0x1000000000000000
     t.status = 0x06 ∧ t.cause = 4 ∧ t.cell 3 = some 1) := by decide

/-- R162: FBFREE releases; F12: with none held it takes FbAbsent. -/
theorem test_fbfree :
    (after (bench 16 16 (some [(3, 1)])) 0x2000000000000000).status = 0x00 ∧
    (after (bench 16 16 none) 0x2000000000000000).cause = 3 := by decide

/-- F3: `FILL 1, 2, 3` on 4 by 5. -/
theorem test_fill_rows :
    (after (bench 4 5 (some [])) 0x3300000200010000).fb =
      some [(1, 3), (2, 3), (6, 3), (7, 3), (11, 3), (12, 3), (16, 3), (17, 3)] := by decide

/-- F5, F6, F7: the bounds test of FILL at its limit. -/
theorem test_fill_bounds :
    (after (bench 16 16 (some [])) 0x31000003000E0000).cause = 5 ∧
    (after (bench 16 16 (some [])) 0x3100000000100000).cause = 0 ∧
    (after (bench 16 16 (some [])) 0x3100000000110000).cause = 5 := by decide

/-- F9 and P1: FBRD reads cell `x*H + y`. -/
theorem test_fbrd_reads :
    (after (bench 16 16 (some [(50, 2), (56, 1)])) 0x7000000000080003).result = 1 ∧
    (after (bench 16 16 (some [(50, 2), (56, 1)])) 0x7000000000020003).result = 2 := by decide

/-- F11: `FBRD 16, 0` takes OutOfBounds and leaves RESULT. -/
theorem test_fbrd_bounds :
    let t := after { bench 16 16 (some []) with result := 7 } 0x7000000000000010
    t.cause = 5 ∧ t.result = 7 ∧ t.fcmd = 0x7000000000000010#64 := by decide

/-- Q5, Q4: PALQ needs no framebuffer and reads placeholder entries. -/
theorem test_palq :
    (after (bench 16 16 none) 0x8400000000000000).result = 0x04A4 ∧
    (after (bench 16 16 none) 0x8F00000000000000).result = 0x0FAF := by decide

/-- G2: eight cells; G7: the last legal asset address; R123 f: colour 0 is painted. -/
theorem test_glyph_paints :
    (after (bench 16 16 (some [])) 0x4702000600000002).fb =
      some [(32, 7), (33, 7), (48, 7), (49, 7), (206, 7), (207, 7), (222, 7), (223, 7)] ∧
    (after (bench 16 16 (some [])) 0x4101003A00000000).fb = some [(0, 1), (3, 1)] ∧
    (after (bench 16 16 (some [(0, 2), (1, 2)])) 0x4001003A00000000).fb = some [(1, 2)] := by decide +kernel

/-- X1, X4, X5, X6: the faults of GLYPH. -/
theorem test_glyph_faults :
    (after (bench 16 16 (some [])) 0x410100000004000B).cause = 5 ∧
    (after (bench 16 16 (some [])) 0x4100000000000000).cause = 9 ∧
    (after (bench 16 16 none) 0x4100000000000000).cause = 3 ∧
    (after (bench 16 16 (some [])) 0x4101003B00000000).cause = 6 := by decide +kernel

/-- I1: a literal byte gives seven bits, not eight (C1); I4: a zero-length run and leftover bits. -/
theorem test_icon_paints :
    (after (bench 4 5 (some [])) 0x5401001000000000).fb =
      some [(0, 4), (2, 4), (4, 4), (6, 4), (7, 4), (8, 4), (9, 4), (10, 4), (11, 4), (12, 4), (13, 4), (14, 4)] ∧
    (after (bench 4 5 (some [])) 0x5801002800030002).fb = some [(13, 8), (14, 8), (18, 8)] := by decide +kernel

/-- I3: the truncated icon keeps what it painted; X8: the declared stream is tested whole; X12: a zero-width icon is still
tested. -/
theorem test_icon_faults :
    (let t := after (bench 4 5 (some [])) 0x5601002000010001
     t.fb = some [(6, 6), (7, 6), (8, 6), (9, 6), (11, 6), (12, 6), (13, 6)] ∧ t.cause = 7 ∧
       t.fcmd = 0x5601002000010001#64) ∧
    (after (bench 16 16 (some [])) 0x5101003800000000).cause = 6 ∧
    (after (bench 16 16 (some [])) 0x5401003000090011).cause = 5 := by decide +kernel

/-- O2: pixel `y = 0` first, high byte first. -/
theorem test_scanout :
    (after (bench 2 2 (some [(1, 10), (3, 10)])) 0x6000000000000000).trace =
      [⟨0, [0x00, 0xA0, 0x0A, 0xAA]⟩, ⟨1, [0x00, 0xA0, 0x0A, 0xAA]⟩] := by decide +kernel

/-- O5 and R184: with no framebuffer nothing is emitted. -/
theorem test_scanout_absent :
    let t := after (bench 2 2 none) 0x6000000000000000
    t.cause = 3 ∧ t.trace = [] := by decide

/-- X13, X14: illegal words, with and without a framebuffer. -/
theorem test_illegal_command :
    (after (bench 16 16 (some [])) 0x3201000300000000).cause = 1 ∧ (after (bench 16 16 none) 0).cause = 1 := by decide

/-- X15: a faulted machine discards every word. -/
theorem test_discard :
    let s := { bench 16 16 (some []) with cause := 5, fcmd := 0x410100000004000B#64 }
    after s 0x6000000000000000 = { s with pc := 1 } ∧ after s 0 = { s with pc := 1 } := by decide +kernel

/-- Z1: reset from a faulted, held machine. -/
theorem test_reset :
    let t := acted { bench 4 5 (some [(3, 7)]) with cause := 5, fcmd := 1, result := 9 } .reset
    t.status = 0 ∧ t.cause = 0 ∧ t.fcmd = 0 ∧ t.result = 0 ∧ t.fb = none ∧ t.statusRegister 4 = 4 ∧
      t.statusRegister 5 = 5 := by decide +kernel

/-- Z5: `rst` while SCANOUT is in progress, one line out. -/
theorem test_reset_during_scanout :
    let t := acted (bench 2 2 (some [])) (.resetDuring 0x6000000000000000#64 1)
    t.delivered = [⟨0, [0x00, 0xA0, 0x00, 0xA0]⟩] ∧ t.trace = [] ∧ t.fb = none := by decide +kernel

/-- R25, R26: the status port, and a register number above 5. -/
theorem test_status_port :
    (acted (bench 16 16 (some [])) (.readStatus 0)).reads = [(0, 2)] ∧
    (acted (bench 16 16 none) (.readStatus 6)).reads = [(6, 0)] := by decide +kernel

/-- R63: a rewritten asset byte. -/
theorem test_rewrite_asset :
    (acted (bench 16 16 none) (.writeAsset 63 0xAB)).assetRead 63 = 0xAB := by decide +kernel

/-- T1, T2: `'A'` and the codes drawn as the question mark. -/
theorem test_char :
    charLine (bench 160 8 none).params 0 0 1 1 0x41 = .glyph 0 0 1 1 0x01C6 ∧
    charLine (bench 160 8 none).params 0 0 1 1 0x7F = .glyph 0 0 1 1 0x01BA ∧
    charLine (bench 160 8 none).params 0 0 1 1 0x7E = .glyph 0 0 1 1 0x0334 := by decide +kernel

/-- T3: the third character does not fit at scale 2 on a width of 30. -/
theorem test_text_clips :
    layoutText (bench 30 8 none).params 0 0 1 2 [0x48, 0x69, 0x3F] =
      some [.glyph 0 0 1 2 0x01F0, .glyph 11 0 1 2 0x02B6] := by decide +kernel

/-- T5: newline at scale 1, no clipping. -/
theorem test_text_newline :
    layoutText (bench 16 8 none).params 4 0 1 1 [0x61, 0x0A, 0x63] =
      some [.glyph 4 0 1 1 0x0286, .glyph 4 10 1 1 0x0292] := by decide +kernel

/-- A held machine whose last word, FBINIT at index 0 of a program of one, faults (F2), and what the host does next. -/
def overrun (next : HostAction) : State :=
  acted (after (bench 16 16 (some [])) 0x1000000000000000) next

/-- R227: the run of P has ended at its faulting last word, without success, though the host reads the status after it. -/
theorem test_run_ended_by_fault :
    let s := overrun (.readStatus 1)
    s.ended [0x1000000000000000] ∧ ¬ s.endedSuccessfully [0x1000000000000000] ∧ s.runResult = ⟨[], 6, 4, 0x1000000000000000, 0⟩ := by
  decide +kernel

/-- R227, R38: `rst` after that run clears CAUSE, and makes no run that ended successfully of it. -/
theorem test_run_reset_is_no_success :
    (overrun .reset).cause = 0 ∧ ¬ (overrun .reset).endedSuccessfully [0x1000000000000000] := by decide +kernel

/-! Witnesses: for each statement with hypotheses, a concrete state and operands that meet them. -/

theorem witness_EncodeOfDecode : decode 0x4101000000040002#64 = .ok (.glyph 2 4 1 1 0) := by decide

theorem witness_DecodeAcceptsTableRows :
    decode 0x8400000000000000#64 = .ok (.palq 4) ∧ rowOf (.palq 0) ∈ rows ∧
      (rowOf (.palq 0)).spells 0x8400000000000000#64 = true := by decide

theorem witness_ReservedOpcodesAreIllegal :
    (fieldOp 0x0000000000000000#64).toNat = 0 ∧ 9 ≤ (fieldOp 0x9000000000000000#64).toNat ∧
      (bench 16 16 none).cause = 0 := by decide

theorem witness_UnspelledWordIsIllegal :
    wellFormedWord 0x1000000000000001#64 = false ∧ (bench 16 16 (some [])).cause = 0 ∧ (bench 16 16 none).cause = 0 ∧
      ((bench 16 16 none).withFetchWord 64 0x1000000000000001).script = .command 0x1000000000000001#64 :: [] := by decide

theorem witness_StepRunsDecodedCommand :
    let s := (bench 16 16 none).withFetchWord 64 0x8400000000000000
    s.script = .command 0x8400000000000000#64 :: [] ∧ decode 0x8400000000000000#64 = .ok (.palq 4) := by decide

theorem witness_IdleMachineStays : (bench 16 16 none).script = [] := by decide

theorem witness_FaultedMachineDiscards :
    let s := { (bench 16 16 none).withFetchWord 64 0 with cause := 5 }
    s.script = .command 0 :: [] ∧ s.cause ≠ 0 := by decide

/-- A faulted machine whose next action, the last, is a word. -/
def faulted : State := { (bench 16 16 (some [])).withFetchWord 64 0 with cause := 5 }

theorem witness_FaultedUntilReset :
    faulted.cause ≠ 0 ∧ (∀ act rest, faulted.script = act :: rest → assertsReset act = false) ∧
      ∃ t, step faulted = .next t := by
  refine ⟨by decide, fun act rest h => ?_, _, rfl⟩
  cases h
  rfl

/-- Every command answers a next state, so the statements about `exec i s = .next t` are about something. -/
theorem witness_exec_next (i : Instr) : ∃ t, exec i (bench 16 16 (some [])) = .next t := by
  cases i <;> exact ⟨_, rfl⟩

/-- PALQ and FBRD that complete (ResultWrittenByReadsOnly, ReadbackBelowSixteen). -/
theorem witness_ResultWrittenByReadsOnly :
    (∃ t, exec (.palq 4) (bench 16 16 none) = .next t ∧ t.cause = 0) ∧
    (∃ t, exec (.fbrd 15 15) (bench 16 16 (some [])) = .next t ∧ t.cause = 0) ∧
    ∃ t, exec (.fbrd 16 0) (bench 16 16 (some [])) = .next t ∧ t.cause ≠ 0 :=
  ⟨⟨_, rfl, by decide⟩, ⟨_, rfl, by decide +kernel⟩, ⟨_, rfl, by decide +kernel⟩⟩

/-- A command that faults (HeldFlagWrittenByLifecycleOnly, FaultsArePrecise), with a cause that is not 7 and one that is. -/
theorem witness_FaultsArePrecise :
    (∃ t, exec .fbfree (bench 16 16 none) = .next t ∧ (bench 16 16 none).cause = 0 ∧ t.cause ≠ 0 ∧ t.cause ≠ 7) ∧
    ∃ t, exec (.icon 1 1 6 1 0x20) (bench 4 5 (some [])) = .next t ∧ t.cause = 7 :=
  ⟨⟨_, rfl, by decide, by decide, by decide⟩, ⟨_, rfl, by decide +kernel⟩⟩

/-- A cell written by a command (WritesStoreTheColour). -/
theorem witness_WritesStoreTheColour :
    ∃ t, exec (.fill 0 1 3) (bench 1 1 (some [])) = .next t ∧ t.cell 0 = some 3 := ⟨_, rfl, by decide +kernel⟩

/-- A state with a drawing in its framebuffer that meets the invariant and steps (StepKeepsInvariant, MaskChangesNoCell,
ReadbackBelowSixteen). -/
theorem witness_StepKeepsInvariant :
    ((bench 4 5 (some [(1, 3), (2, 3)])).withFetchWord 64 0x6000000000000000).Inv ∧
      ∃ t, step ((bench 4 5 (some [(1, 3), (2, 3)])).withFetchWord 64 0x6000000000000000) = .next t := by
  refine ⟨⟨by decide +kernel, ?_, by decide +kernel, by decide +kernel, by decide, by decide, by decide, by decide⟩, _, rfl⟩
  intro m hm
  cases hm
  decide +kernel

theorem witness_StatusPortReads :
    ({ bench 16 16 none with script := [.readStatus 4] } : State).script = .readStatus 4 :: [] ∧ 6 ≤ 6 := by decide

theorem witness_ResetFromAnyState :
    ({ bench 16 16 none with script := [.reset] } : State).script = .reset :: [] := by decide

/-- A SCANOUT in progress with all its lines out, and a command that is no SCANOUT. -/
theorem witness_ResetDuringCommand :
    let s := { bench 2 2 (some []) with script := [.resetDuring 0x6000000000000000#64 2] }
    s.script = .resetDuring 0x6000000000000000#64 2 :: [] ∧ decode 0x6000000000000000#64 = .ok .scanout ∧ s.cause = 0 ∧
      s.fb = some [] ∧ 2 ≤ s.params.W ∧ decode 0x1000000000000000#64 ≠ .ok .scanout := by decide

theorem witness_HostRewritesAssets :
    let s := { bench 2 2 none with script := [.writeAsset 63 1] }
    let u := { bench 2 2 none with script := [.writeAsset 64 1] }
    s.script = .writeAsset 63 1 :: [] ∧ 63 < s.params.assetSize ∧ u.script = .writeAsset 64 1 :: [] ∧
      u.params.assetSize ≤ 64 := by decide

theorem witness_FbAbsentFaults : (bench 16 16 none).cause = 0 ∧ (bench 16 16 none).fb = none := by decide

theorem witness_AllocationFailureAborts :
    let s := { bench 16 16 none with allocIn := [false] }
    s.cause = 0 ∧ s.fb = none ∧ s.allocIn = false :: [] := by decide

/-- Scale 0 and scale 1 with a framebuffer held (IllegalScaleExactlyZero, AssetExtentChecked). -/
theorem witness_IllegalScaleExactlyZero :
    (bench 16 16 (some [])).cause = 0 ∧ (bench 16 16 (some [])).fb = some [] ∧
      (∃ t, exec (.glyph 0 0 1 0 0) (bench 16 16 (some [])) = .next t) ∧
      (∃ t, exec (.icon 0 0 1 1 0x10) (bench 16 16 (some [])) = .next t) ∧ (1 : Byte) ≠ 0 :=
  ⟨by decide, by decide, ⟨_, rfl⟩, ⟨_, rfl⟩, by decide⟩

/-- AssetOutOfRange taken by GLYPH at the first address that does not fit, and by ICON on its declared stream (X6, X8). -/
theorem witness_AssetExtentChecked :
    (∃ t, exec (.glyph 0 0 1 1 59) (bench 16 16 (some [])) = .next t ∧ t.cause = 6) ∧
    ∃ t, exec (.icon 0 0 1 1 0x38) (bench 16 16 (some [])) = .next t ∧ t.cause = 6 :=
  ⟨⟨_, rfl, by decide +kernel⟩, ⟨_, rfl, by decide +kernel⟩⟩

/-- Another asset space, different at an address that does not exist. -/
theorem witness_AssetReadsStayInside :
    let s := bench 16 16 (some [])
    let other : Memory := assets ++ [(70, 1)]
    (∀ k, k < s.params.assetSize → Memory.read other k = s.assetRead k) ∧
      (∃ t, exec (.icon 0 0 4 1 0x10) s = .next t) ∧ ∃ t, exec (.icon 0 0 4 1 0x10) { s with asset := other } = .next t :=
  ⟨by decide +kernel, ⟨_, rfl⟩, ⟨_, rfl⟩⟩

/-- The bounds tests of the four commands, each one pixel beyond its limit (F5, F11, X1, X9). -/
theorem witness_BoundsChecked :
    (∃ t, exec (.fill 14 3 1) (bench 16 16 (some [])) = .next t ∧ t.cause = 5) ∧
    (∃ t, exec (.fbrd 16 0) (bench 16 16 (some [])) = .next t ∧ t.cause = 5) ∧
    (∃ t, exec (.glyph 11 4 1 1 0) (bench 16 16 (some [])) = .next t ∧ t.cause = 5) ∧
    (∃ t, exec (.icon 0 0 4 1 0x18) (bench 16 16 (some [])) = .next t ∧ t.cause = 5) ∧
    0 + 6 ≤ (bench 16 16 (some [])).params.assetSize ∧
    0x18 + 3 + iconLength (bench 16 16 (some [])) 0x18 ≤ (bench 16 16 (some [])).params.assetSize :=
  ⟨⟨_, rfl, by decide +kernel⟩, ⟨_, rfl, by decide +kernel⟩, ⟨_, rfl, by decide +kernel⟩, ⟨_, rfl, by decide +kernel⟩,
    by decide, by decide +kernel⟩

theorem witness_FbinitZeroesFramebuffer :
    let s := { bench 16 16 none with allocIn := [true] }
    s.cause = 0 ∧ s.fb = none ∧ s.allocIn = true :: [] := by decide

theorem witness_FbinitWhileHeld : (bench 16 16 (some [(3, 1)])).cause = 0 ∧ (bench 16 16 (some [(3, 1)])).fb = some [(3, 1)] := by
  decide

theorem witness_FbinitByFreeAnswer :
    (bench 16 16 none).cause = 0 ∧ (bench 16 16 none).fb = none ∧ (bench 16 16 none).allocIn = [] := by decide

/-- FBFREE held and not held (FbfreeReleases, ReleaseForgetsContents). -/
theorem witness_FbfreeReleases :
    (bench 16 16 (some [(3, 1)])).cause = 0 ∧ (bench 16 16 (some [(3, 1)])).fb = some [(3, 1)] ∧
      (bench 16 16 none).cause = 0 ∧ (bench 16 16 none).fb = none := by decide

/-- FILL at the last row that fits, one beyond, and with no framebuffer. -/
theorem witness_FillPaintsRows :
    let s := bench 16 16 (some [])
    s.cause = 0 ∧ s.fb = some [] ∧ (14 : Half).toNat + (2 : Half).toNat ≤ s.params.H ∧
      s.params.H < (14 : Half).toNat + (3 : Half).toNat ∧ (bench 16 16 none).fb = none := by decide

/-- FBRD of the last pixel, of one beyond in each direction, and with no framebuffer. -/
theorem witness_FbrdReadsCell :
    let s := bench 16 16 (some [])
    s.cause = 0 ∧ s.fb = some [] ∧ (15 : Half).toNat < s.params.W ∧ (15 : Half).toNat < s.params.H ∧
      s.params.W ≤ (16 : Half).toNat ∧ s.params.H ≤ (16 : Half).toNat ∧ (bench 16 16 none).fb = none := by decide

theorem witness_WriteOrderUnobservable :
    Memory.wf [(1, 3), (4, 2)] ∧ ∀ k, k ∈ [4, 0, 4] ↔ k ∈ [0, 4] := by
  refine ⟨by decide, fun k => ?_⟩
  simp
  tauto

theorem witness_PalqReadsPalette : (bench 16 16 none).cause = 0 ∧ faulted.cause ≠ 0 := by decide

/-- GLYPH at its largest legal origin and last legal address (G5, G7). -/
theorem witness_GlyphPaintsBlocks :
    let s := bench 16 16 (some [])
    s.cause = 0 ∧ s.fb = some [] ∧ (1 : Byte) ≠ 0 ∧ (58 : Half).toNat + 6 ≤ s.params.assetSize ∧
      (10 : Half).toNat + 6 * (1 : Byte).toNat ≤ s.params.W ∧ (8 : Half).toNat + 8 * (1 : Byte).toNat ≤ s.params.H := by
  decide

/-- Each clause of GlyphFaultOrder at its boundary (X5, X4, X6, X1). -/
theorem witness_GlyphFaultOrder :
    let s := bench 16 16 (some [])
    (bench 16 16 none).fb = none ∧ s.cause = 0 ∧ s.fb = some [] ∧ (0 : Byte) = 0 ∧
      s.params.assetSize < (59 : Half).toNat + 6 ∧ (58 : Half).toNat + 6 ≤ s.params.assetSize ∧
      s.params.W < (11 : Half).toNat + 6 * (1 : Byte).toNat ∧ s.params.H < (9 : Half).toNat + 8 * (1 : Byte).toNat := by
  decide

/-- A decoder about to read its last byte, a literal (0x55 at 0x13) or a run marker (0xC8 at 0x14). -/
theorem witness_OneStreamByteDecodes :
    let d : Decoder := ⟨0x80, 0, false, 0, 1, 0x13⟩
    let e : Decoder := ⟨0x80, 0, false, 0, 1, 0x14⟩
    d.mask = 0x80 ∧ d.runLength = 0 ∧ d.budget = 1 ∧ ((bench 16 16 none).assetRead d.p.toNat).getLsbD 7 = false ∧
      e.budget = 1 ∧ ((bench 16 16 none).assetRead e.p.toNat).getLsbD 7 = true ∧ 63 < 64 := by decide +kernel

/-- I7: icon K1 at scale 3 at its largest legal origin; its stream is long enough. -/
theorem witness_IconPaintsDecodedBits :
    let s := bench 16 16 (some [])
    iconAccepted s [] (7 : Half).toNat (1 : Half).toNat (3 : Byte).toNat (0x10 : Half).toNat ∧
      iconWidth s 0x10 * iconHeight s 0x10 ≤ (iconBits s 0x10).length := by decide +kernel

/-- I3: icon K3 yields one bit too few. -/
theorem witness_IconTruncationKeepsPainted :
    let s := bench 4 5 (some [])
    iconAccepted s [] (1 : Half).toNat (1 : Half).toNat (1 : Byte).toNat (0x20 : Half).toNat ∧
      (iconBits s 0x20).length < iconWidth s 0x20 * iconHeight s 0x20 := by decide +kernel

/-- Each clause of IconFaultOrder at its boundary (X7, X8, X9, X10). -/
theorem witness_IconFaultOrder :
    let s := bench 16 16 (some [])
    (bench 16 16 none).fb = none ∧ s.cause = 0 ∧ s.fb = some [] ∧ s.params.assetSize < (62 : Half).toNat + 3 ∧
      (0x38 : Half).toNat + 3 ≤ s.params.assetSize ∧ s.params.assetSize < (0x38 : Half).toNat + 3 + iconLength s 0x38 ∧
      (0x10 : Half).toNat + 3 + iconLength s 0x10 ≤ s.params.assetSize ∧
      s.params.W < (14 : Half).toNat + iconWidth s 0x10 * (1 : Byte).toNat ∧
      s.params.H < (0 : Half).toNat + iconHeight s 0x10 * (4 : Byte).toNat := by decide +kernel

/-- I5: icon K5 has width 0. -/
theorem witness_EmptyIconPaintsNothing :
    let s := bench 16 16 (some [])
    iconAccepted s [] (16 : Half).toNat (9 : Half).toNat (1 : Byte).toNat (0x30 : Half).toNat ∧ iconWidth s 0x30 = 0 := by
  decide +kernel

/-- SCANOUT held and not held (ScanoutEmitsLines, LineBufferHoldsLastLine). -/
theorem witness_ScanoutEmitsLines :
    (bench 2 2 (some [])).cause = 0 ∧ (bench 2 2 (some [])).fb = some [] ∧ 1 ≤ (bench 2 2 (some [])).params.W ∧
      (bench 2 2 none).fb = none := by decide

theorem witness_ScaledTextFitsWidth :
    2 ≤ 2 ∧ (AsmLine.glyph 11 0 1 2 0x02B6) ∈ layoutFrom (bench 30 8 none).params 0 1 2 0 0 [0x48, 0x69, 0x3F] := by
  decide +kernel

/-- A newline before the character, and none. -/
theorem witness_UnscaledTextIsNotClipped :
    ([0x61, 0x0A, 0x63, 0x64] : List Byte) = [0x61, 0x0A, 0x63] ++ 0x64 :: [] ∧ (0x64 : Byte) ≠ 0x0A ∧
      cursorColumn 4 9 [0x61, 0x0A, 0x63] = 10 ∧ cursorRow 0 [0x61, 0x0A, 0x63] = 10 ∧ cursorColumn 4 9 [0x61] = 15 := by
  decide

/-- A program to load; a run that has ended and a host that reads, or resets. -/
theorem witness_RunEndsWithItsLastWord :
    (bench 2 2 none).pc = 0 ∧
    (let s := { bench 2 2 none with pc := 1, script := [.readStatus 1, .reset] }
     s.follows [0x8400000000000000] ∧ s.ended [0x8400000000000000] ∧ assertsReset (.readStatus 1) = false ∧
       step s = .next { s with script := [.reset], reads := [(1, 0)] }) ∧
    assertsReset .reset = true :=
  ⟨by decide, ⟨by decide, by decide, rfl, rfl⟩, rfl⟩

theorem witness_AssemblerNeverTruncates : assembleCommand (.palq 15) = some (.palq 15) := by decide

end Sys2Proof.Tests
end

section
/-! SUPPORT. The invariant `State.Inv`: the state after reset meets it, every update of the state a command makes keeps it,
and so every step does. -/
namespace Sys2Proof.Machine

/-! What the invariant says of each memory, and which updates keep it. -/

theorem Cause.code_legal (f : Cause) : legalCause f.code := by cases f <;> decide

/-- Fault entry keeps the invariant: the code is a legal one and not 0, so FCMD may hold any word (R190, R200). -/
theorem State.Inv.raise {s : State} (hs : s.Inv) (f : Cause) (cmd : Cmd) : (raise f cmd s).Inv := by
  obtain ⟨hp, hfb, hlb, hasset, -, -, htrace, hdelivered⟩ := hs
  exact ⟨hp, hfb, hlb, hasset, f.code_legal, fun h => absurd h f.code_ne_zero, htrace, hdelivered⟩

theorem State.Inv.setFb {s : State} (hs : s.Inv) {fb : Option Memory} (hfb : ∀ m ∈ fb, framebufferGood s.params m) :
    (s.setFb fb).Inv := by
  obtain ⟨hp, -, hrest⟩ := hs
  exact ⟨hp, hfb, hrest⟩

theorem State.Inv.setFb_some {s : State} (hs : s.Inv) {m : Memory} (hm : framebufferGood s.params m) :
    (s.setFb (some m)).Inv :=
  hs.setFb fun _ h => Option.some.inj h ▸ hm

theorem State.Inv.framebuffer {s : State} (hs : s.Inv) {m : Memory} (hm : s.fb = some m) : framebufferGood s.params m := by
  obtain ⟨-, hfb, -⟩ := hs
  exact hfb m hm

theorem State.Inv.lineBuffer {s : State} (hs : s.Inv) : Memory.wf s.lb ∧ Memory.below s.lb (2 * s.params.H) := by
  obtain ⟨-, -, hlb, -⟩ := hs
  exact hlb

theorem State.Inv.assets {s : State} (hs : s.Inv) : Memory.wf s.asset ∧ Memory.below s.asset s.params.assetSize := by
  obtain ⟨-, -, -, hasset, -⟩ := hs
  exact hasset

theorem State.Inv.setLb {s : State} (hs : s.Inv) {lb : Memory} (hlb : Memory.wf lb ∧ Memory.below lb (2 * s.params.H)) :
    State.Inv { s with lb := lb } := by
  obtain ⟨hp, hfb, -, hrest⟩ := hs
  exact ⟨hp, hfb, hlb, hrest⟩

theorem State.Inv.setAsset {s : State} (hs : s.Inv) {m : Memory}
    (hm : Memory.wf m ∧ Memory.below m s.params.assetSize) : State.Inv { s with asset := m } := by
  obtain ⟨hp, hfb, hlb, -, hrest⟩ := hs
  exact ⟨hp, hfb, hlb, hm, hrest⟩

theorem State.Inv.emit {s : State} (hs : s.Inv) {es : List LineEvent} (hes : ∀ e ∈ es, eventGood s.params e) :
    (emit es s).Inv := by
  obtain ⟨hp, hfb, hlb, hasset, hcause, hfcmd, htrace, hdelivered⟩ := hs
  exact ⟨hp, hfb, hlb, hasset, hcause, hfcmd, List.forall_mem_append.2 ⟨htrace, hes⟩, hdelivered⟩

theorem State.Inv.afterReset {s : State} (hs : s.Inv) : (afterReset s).Inv := by
  obtain ⟨hp, -, -, hasset, -, -, htrace, hdelivered⟩ := hs
  exact ⟨hp, nofun, ⟨Memory.wf_tabulate _ _, Memory.below_tabulate _ _⟩, hasset, .inl (Nat.zero_le _), fun _ => rfl, nofun,
    List.forall_mem_append.2 ⟨hdelivered, htrace⟩⟩

/-! The fields the invariant does not speak of. -/

@[simp] theorem setResult_inv (s : State) (v : BitVec 16) : (s.setResult v).Inv ↔ s.Inv := Iff.rfl
@[simp] theorem advance_inv (s : State) (rest : List HostAction) : (advance s rest).Inv ↔ s.Inv := Iff.rfl
@[simp] theorem countWord_inv (s : State) : (countWord s).Inv ↔ s.Inv := Iff.rfl
@[simp] theorem readStatusPort_inv (n : Nat) (s : State) : (readStatusPort n s).Inv ↔ s.Inv := Iff.rfl
@[simp] theorem drawAlloc_inv (s : State) : (drawAlloc s).2.Inv ↔ s.Inv := by unfold drawAlloc; split <;> rfl

/-! What the commands write into the memories and the trace. -/

theorem framebufferGood_zeroed (p : Params) : framebufferGood p zeroed := ⟨⟨List.Pairwise.nil, nofun⟩, nofun, nofun⟩

/-- Painting addresses inside the framebuffer keeps it good (R160). -/
theorem framebufferGood_fill {p : Params} {m : Memory} (hm : framebufferGood p m) {ks : List Nat}
    (hks : ∀ k ∈ ks, k < p.W * p.H) (c : Colour) : framebufferGood p (Memory.fill m ks (paint c)) := by
  obtain ⟨hwf, hbelow, hcells⟩ := hm
  refine ⟨Memory.wf_fill hwf ks _, Memory.below_fill hbelow hks _, fun q hq => ?_⟩
  rcases Memory.mem_fill hq with hv | hq
  · exact hv ▸ paint_lt c
  · exact hcells q hq

theorem barCells_lt {p : Params} {y h k : Nat} (hr : rowsInside p y h) (hk : k ∈ barCells p y h) : k < p.W * p.H :=
  rectCells_lt ⟨(Nat.zero_add _).le, hr⟩ hk

theorem blockCells_lt {p : Params} {x y sc w h i j k : Nat} (hr : rectInside p x y (w * sc) (h * sc)) (hi : i < w)
    (hj : j < h) (hk : k ∈ blockCells p x y sc i j) : k < p.W * p.H :=
  rectCells_lt (block_inside hr hi hj) hk

theorem glyphCells_lt {s : State} {x y sc a k : Nat} (hr : rectInside s.params x y (6 * sc) (8 * sc))
    (hk : k ∈ glyphCells s x y sc a) : k < s.params.W * s.params.H := by
  obtain ⟨col, hcol, row, hrow, -, hk⟩ := mem_glyphCells.1 hk
  exact blockCells_lt hr hcol hrow hk

/-- A blit inside the framebuffer keeps it good, also one that ends for a missing byte (R141). -/
theorem framebufferGood_blitPixels {s : State} {m : Memory} (hm : framebufferGood s.params m) {x y sc w h : Nat}
    (hr : rectInside s.params x y (w * sc) (h * sc)) (c : Colour) (d : Decoder) :
    framebufferGood s.params (blitPixels s x y sc (paint c) (columnMajor w h) d m).mem :=
  blitPixels_keeps (P := framebufferGood s.params)
    (fun _ hm' _ hq =>
      have ⟨hi, hj⟩ := mem_columnMajor.1 hq
      framebufferGood_fill hm' (fun _ hk => blockCells_lt hr hi hj hk) c) hm

theorem eventGood_of_mem_scanLines {p : Params} {m : Memory} {e : LineEvent} (he : e ∈ scanLines p m) : eventGood p e := by
  obtain ⟨hi, hb⟩ := mem_scanLines.1 he
  exact ⟨hi, hb ▸ lineBytes_length p m e.index⟩

/-- After lines of `n` bytes the line buffer is canonical and inside `n` bytes, if it was (R55, R182). -/
theorem bufferAfter_inside {n : Nat} {lines : List LineEvent} (hlines : ∀ e ∈ lines, e.bytes.length = n) {lb : Memory}
    (hlb : Memory.wf lb ∧ Memory.below lb n) :
    Memory.wf (bufferAfter lines lb) ∧ Memory.below (bufferAfter lines lb) n := by
  unfold bufferAfter
  split
  · exact hlb
  · rename_i e he
    rw [hlines e (List.mem_of_getLast? he)]
    exact ⟨Memory.wf_tabulate n _, Memory.below_tabulate n _⟩

/-! The commands. -/

/-- If this outcome is a next state, that state meets the invariant. -/
def AnswersInv (o : Host.Outcome State Fault Refusal) : Prop := ∀ t, o = .next t → t.Inv

@[simp] theorem answersInv_next {t : State} : AnswersInv (.next t) ↔ t.Inv :=
  ⟨fun h => h t rfl, fun h _ e => Host.Outcome.next.inj e ▸ h⟩

@[simp] theorem answersInv_fault (r : Fault) : AnswersInv (.fault r) := nofun

section commands
variable {s : State} (hs : s.Inv) (h : s.cause = 0)
include hs h

theorem execFbinit_answersInv : AnswersInv (execFbinit s) := by
  rcases execFbinit_cases h with ⟨-, he⟩ | ⟨-, -, he⟩ | ⟨-, -, he⟩ <;> rw [he, answersInv_next]
  · exact hs.raise ..
  · exact ((drawAlloc_inv s).2 hs).setFb_some (framebufferGood_zeroed _)
  · exact ((drawAlloc_inv s).2 hs).raise ..

theorem execPalq_answersInv (c : Colour) : AnswersInv (execPalq c s) := by
  rw [execPalq_eq h, answersInv_next, setResult_inv]
  exact hs

/-- Of a command that needs a framebuffer the runs with one held are left to look at (R193). -/
theorem exec_answersInv_of_held {i : Instr} (hi : i ≠ .fbinit) (hp : ∀ c, i ≠ .palq c)
    (held : ∀ m, s.fb = some m → AnswersInv (exec i s)) : AnswersInv (exec i s) := by
  cases hf : s.fb with
  | none =>
    rw [exec_absent i hf hi hp h, answersInv_next]
    exact hs.raise ..
  | some m => exact held m hf

variable {m : Memory} (hm : s.fb = some m)
include hm

theorem execFbfree_answersInv : AnswersInv (execFbfree s) := by
  rw [execFbfree_held h hm, answersInv_next]
  exact hs.setFb nofun

theorem execFill_answersInv (y h' : Half) (c : Colour) : AnswersInv (execFill y h' c s) := by
  rcases execFill_held h hm y h' c with ⟨hr, he⟩ | ⟨-, he⟩ <;> rw [he, answersInv_next]
  · exact hs.setFb_some (framebufferGood_fill (hs.framebuffer hm) (fun _ => barCells_lt hr) c)
  · exact hs.raise ..

theorem execGlyph_answersInv (x y : Half) (c : Colour) (sc : Byte) (a : Half) : AnswersInv (execGlyph x y c sc a s) := by
  rcases execGlyph_held h hm x y c sc a with ⟨-, he⟩ | ⟨-, -, he⟩ | ⟨-, -, -, he⟩ | ⟨-, -, hr, he⟩ <;>
    rw [he, answersInv_next]
  · exact hs.raise ..
  · exact hs.raise ..
  · exact hs.raise ..
  · exact hs.setFb_some (framebufferGood_fill (hs.framebuffer hm) (fun _ => glyphCells_lt hr) c)

theorem execIcon_answersInv (x y : Half) (c : Colour) (sc : Byte) (a : Half) : AnswersInv (execIcon x y c sc a s) := by
  rcases execIcon_held h hm x y c sc a rfl rfl rfl rfl with
    ⟨-, he⟩ | ⟨-, -, he⟩ | ⟨-, -, -, he⟩ | ⟨-, -, hr, ⟨-, he⟩ | ⟨-, he⟩⟩ <;> rw [he, answersInv_next]
  · exact hs.raise ..
  · exact hs.raise ..
  · exact hs.raise ..
  · exact hs.setFb_some (framebufferGood_blitPixels (hs.framebuffer hm) hr c _)
  · exact (hs.setFb_some (framebufferGood_blitPixels (hs.framebuffer hm) hr c _)).raise ..

theorem execScanout_answersInv : AnswersInv (execScanout s) := by
  have hlines : ∀ e ∈ scanLines s.params m, eventGood s.params e := fun _ => eventGood_of_mem_scanLines
  rw [execScanout_held h hm, answersInv_next]
  exact (hs.emit hlines).setLb (bufferAfter_inside (fun e he => (hlines e he).2) hs.lineBuffer)

theorem execFbrd_answersInv (x y : Half) : AnswersInv (execFbrd x y s) := by
  rcases execFbrd_held h hm x y with ⟨-, he⟩ | ⟨-, he⟩ <;> rw [he, answersInv_next]
  · exact (setResult_inv ..).2 hs
  · exact hs.raise ..

end commands

/-- Every command keeps the invariant: a faulted machine discards it, and otherwise its meaning says what it does. -/
theorem exec_answersInv {s : State} (hs : s.Inv) (i : Instr) : AnswersInv (exec i s) := by
  by_cases h : s.cause = 0
  · cases i with
    | fbinit => exact execFbinit_answersInv hs h
    | palq c => exact execPalq_answersInv hs h c
    | fbfree => exact exec_answersInv_of_held hs h nofun nofun fun _ hm => execFbfree_answersInv hs h hm
    | fill y h' c => exact exec_answersInv_of_held hs h nofun nofun fun _ hm => execFill_answersInv hs h hm y h' c
    | glyph x y c sc a =>
      exact exec_answersInv_of_held hs h nofun nofun fun _ hm => execGlyph_answersInv hs h hm x y c sc a
    | icon x y c sc a =>
      exact exec_answersInv_of_held hs h nofun nofun fun _ hm => execIcon_answersInv hs h hm x y c sc a
    | scanout => exact exec_answersInv_of_held hs h nofun nofun fun _ hm => execScanout_answersInv hs h hm
    | fbrd x y => exact exec_answersInv_of_held hs h nofun nofun fun _ hm => execFbrd_answersInv hs h hm x y
  · rw [exec_discards h, answersInv_next]
    exact hs

/-! The host's actions. -/

theorem issue_answersInv {s : State} (hs : s.Inv) (w : Cmd) : AnswersInv (issue w s) := by
  unfold issue
  split
  · exact exec_answersInv hs _
  · rw [acceptIllegal, answersInv_next]
    rcases accept_cases s (raise .illegalCommand w s) with ⟨-, he⟩ | ⟨-, he⟩ <;> rw [he]
    · exact hs
    · exact hs.raise ..

/-- A command abandoned by `rst` leaves nothing, or the first lines of the held framebuffer (R221). -/
theorem abandoned_cases (w : Cmd) (k : Nat) (s : State) :
    abandoned w k s = s ∨ ∃ m, s.fb = some m ∧ abandoned w k s = emit ((scanLines s.params m).take k) s := by
  unfold abandoned
  split
  · split
    · exact .inl (ite_self _)
    · rename_i m hm
      rcases accept_cases s (emit ((scanLines s.params m).take k) s) with ⟨-, he⟩ | ⟨-, he⟩
      · exact .inl he
      · exact .inr ⟨m, hm, he⟩
  · exact .inl rfl

theorem State.Inv.abandoned {s : State} (hs : s.Inv) (w : Cmd) (k : Nat) : (abandoned w k s).Inv := by
  rcases abandoned_cases w k s with he | ⟨m, -, he⟩ <;> rw [he]
  · exact hs
  · exact hs.emit fun _ hmem => eventGood_of_mem_scanLines (List.mem_of_mem_take hmem)

theorem rewriteAsset_answersInv {s : State} (hs : s.Inv) (a : Nat) (b : Byte) : AnswersInv (rewriteAsset a b s) := by
  rcases rewriteAsset_cases a b s with ⟨ha, he⟩ | ⟨-, he⟩ <;> rw [he]
  · obtain ⟨hwf, hbelow⟩ := hs.assets
    exact answersInv_next.2 (hs.setAsset ⟨Memory.wf_write hwf a b, Memory.below_write hbelow ha b⟩)
  · exact answersInv_fault _

theorem perform_answersInv {s : State} (hs : s.Inv) (act : HostAction) : AnswersInv (perform act s) := by
  cases act with
  | command w => exact issue_answersInv ((countWord_inv s).2 hs) w
  | reset => exact answersInv_next.2 hs.afterReset
  | resetDuring w k => exact answersInv_next.2 (hs.abandoned w k).afterReset
  | writeAsset addr byte => exact rewriteAsset_answersInv hs addr byte
  | readStatus n => exact answersInv_next.2 ((readStatusPort_inv n s).2 hs)

theorem step_answersInv {s : State} (hs : s.Inv) : AnswersInv (step s) := by
  rcases step_cases s with ⟨-, he⟩ | ⟨act, rest, -, he⟩ <;> rw [he]
  · exact answersInv_next.2 hs
  · exact perform_answersInv ((advance_inv s rest).2 hs) act

/-! Reset. -/

/-- The parameters of the implementation lie in the ranges of R9, whichever they are. -/
theorem configParams_valid : Config.params.Valid := by
  have hw := Config.widthMinusOne.isLt
  have hh := Config.heightMinusOne.isLt
  have hW : Config.params.W = Config.widthMinusOne.val + 1 := Nat.mod_eq_of_lt (by omega)
  have hH : Config.params.H = Config.heightMinusOne.val + 1 := Nat.mod_eq_of_lt (by omega)
  exact ⟨by omega, by omega, Nat.le_of_lt_succ Config.assetSize.isLt⟩

theorem reset_inv : State.reset.Inv :=
  ⟨configParams_valid, nofun, ⟨Memory.wf_tabulate _ _, Memory.below_tabulate _ _⟩,
    ⟨Memory.wf_tabulate _ _, Memory.below_tabulate _ _⟩, by decide, fun _ => rfl, nofun, nofun⟩

/-- Settles O20, from what every action of the host keeps. -/
theorem stepKeepsInvariant : Obligations.StepKeepsInvariant := fun _ t hs e => step_answersInv hs t e

/-- Settles O19. -/
theorem resetMeetsInvariant : Obligations.ResetMeetsInvariant := reset_inv

end Sys2Proof.Machine
end

section
/-! SUPPORT. The state and its registers (spec/10_state.md): what every command can do to the state, said once,
and which fields commands leave unchanged. -/
namespace Sys2Proof.Machine

/-! What a command can do. -/

/-- Every cell of `m'` holds what it holds in `m`, or the byte a drawing in colour `c` stores (R160). -/
def PaintsOnly (c : Colour) (m m' : Memory) : Prop :=
  ∀ k, Memory.read m' k = Memory.read m k ∨ Memory.read m' k = paint c

theorem PaintsOnly.refl (c : Colour) (m : Memory) : PaintsOnly c m m := fun _ => .inl rfl

theorem PaintsOnly.fill {c : Colour} {m m' : Memory} (hp : PaintsOnly c m m') (ks : List Nat) :
    PaintsOnly c m (Memory.fill m' ks (paint c)) := by
  intro k
  rw [Memory.read_fill]
  split
  · exact .inr rfl
  · exact hp k

theorem paintsOnly_blitPixels (s : State) (x y sc : Nat) (c : Colour) (ps : List (Nat × Nat)) (d : Decoder) (m : Memory) :
    PaintsOnly c m (blitPixels s x y sc (paint c) ps d m).mem :=
  blitPixels_keeps (P := PaintsOnly c m) (fun _ hp _ _ => hp.fill _) (.refl c m)

/-- What command `i` can do to a machine in state `s`: be discarded, fault or complete. Which operands lead to which fault
is not said here, but in the cases of the commands. -/
inductive Effect (s : State) : Instr → State → Prop where
  /-- A faulted machine discards the command (R198). -/
  | discarded (i : Instr) (h : s.cause ≠ 0) : Effect s i s
  /-- A fault that writes CAUSE and FCMD and nothing else (R200). -/
  | faulted (i : Instr) (f : Cause) (h : s.cause = 0) : Effect s i (raise f (encode i) s)
  /-- FBINIT with an answer that grants the framebuffer (R161). -/
  | allocated (h : s.cause = 0) (hf : s.fb = none) (ha : (drawAlloc s).1 = true) :
      Effect s .fbinit ((drawAlloc s).2.setFb (some zeroed))
  /-- FBINIT with an answer that refuses it (R192). -/
  | allocationFailed (h : s.cause = 0) (hf : s.fb = none) (ha : (drawAlloc s).1 = false) :
      Effect s .fbinit (raise .allocationFailure (encode .fbinit) (drawAlloc s).2)
  /-- FBFREE of a held framebuffer (R162). -/
  | released {m : Memory} (h : s.cause = 0) (hm : s.fb = some m) : Effect s .fbfree (s.setFb none)
  /-- A drawing command that completes. -/
  | painted {i : Instr} {c : Colour} {m m' : Memory} (h : s.cause = 0) (hm : s.fb = some m) (hc : drawColour i = some c)
      (hp : PaintsOnly c m m') : Effect s i (s.setFb (some m'))
  /-- An ICON that lacks a stream byte keeps what it has painted (R141). -/
  | truncated {i : Instr} {c : Colour} {m m' : Memory} (h : s.cause = 0) (hm : s.fb = some m) (hc : drawColour i = some c)
      (hp : PaintsOnly c m m') : Effect s i (raise .iconTruncated (encode i) (s.setFb (some m')))
  /-- SCANOUT of a held framebuffer (R184). -/
  | scanned {m : Memory} (h : s.cause = 0) (hm : s.fb = some m) :
      Effect s .scanout { emit (scanLines s.params m) s with lb := bufferAfter (scanLines s.params m) s.lb }
  /-- FBRD of a pixel inside the framebuffer (R168). -/
  | pixelRead {m : Memory} (x y : Half) (h : s.cause = 0) (hm : s.fb = some m)
      (hin : pixelInside s.params x.toNat y.toNat) :
      Effect s (.fbrd x y) (s.setResult ((Memory.read m (pix s.params x.toNat y.toNat)).setWidth 16))
  /-- PALQ (R112). -/
  | paletteRead (c : Colour) (h : s.cause = 0) : Effect s (.palq c) (s.setResult (color s.params c))

/-- The outcome is a next state, and one the command can leave. -/
def AnswersEffect (s : State) (i : Instr) (o : Host.Outcome State Fault Refusal) : Prop :=
  ∃ t, o = .next t ∧ Effect s i t

section commands
variable {s : State} (h : s.cause = 0)
include h

theorem execFbinit_effect : AnswersEffect s .fbinit (execFbinit s) := by
  rcases execFbinit_cases h with ⟨-, he⟩ | ⟨hf, ha, he⟩ | ⟨hf, ha, he⟩
  · exact ⟨_, he, .faulted _ _ h⟩
  · exact ⟨_, he, .allocated h hf ha⟩
  · exact ⟨_, he, .allocationFailed h hf ha⟩

/-- Of a command that needs a framebuffer the runs with one held are left to look at (R193). -/
theorem exec_effect_of_held {i : Instr} (hi : i ≠ .fbinit) (hp : ∀ c, i ≠ .palq c)
    (held : ∀ m, s.fb = some m → AnswersEffect s i (exec i s)) : AnswersEffect s i (exec i s) := by
  cases hf : s.fb with
  | none => exact ⟨_, exec_absent i hf hi hp h, .faulted _ _ h⟩
  | some m => exact held m hf

variable {m : Memory} (hm : s.fb = some m)
include hm

theorem execFill_effect (y h' : Half) (c : Colour) : AnswersEffect s (.fill y h' c) (execFill y h' c s) := by
  rcases execFill_held h hm y h' c with ⟨-, he⟩ | ⟨-, he⟩
  · exact ⟨_, he, .painted h hm rfl ((PaintsOnly.refl c m).fill _)⟩
  · exact ⟨_, he, .faulted _ _ h⟩

theorem execGlyph_effect (x y : Half) (c : Colour) (sc : Byte) (a : Half) :
    AnswersEffect s (.glyph x y c sc a) (execGlyph x y c sc a s) := by
  rcases execGlyph_held h hm x y c sc a with ⟨-, he⟩ | ⟨-, -, he⟩ | ⟨-, -, -, he⟩ | ⟨-, -, -, he⟩
  · exact ⟨_, he, .faulted _ _ h⟩
  · exact ⟨_, he, .faulted _ _ h⟩
  · exact ⟨_, he, .faulted _ _ h⟩
  · exact ⟨_, he, .painted h hm rfl ((PaintsOnly.refl c m).fill _)⟩

theorem execIcon_effect (x y : Half) (c : Colour) (sc : Byte) (a : Half) :
    AnswersEffect s (.icon x y c sc a) (execIcon x y c sc a s) := by
  rcases execIcon_held h hm x y c sc a rfl rfl rfl rfl with
    ⟨-, he⟩ | ⟨-, -, he⟩ | ⟨-, -, -, he⟩ | ⟨-, -, -, ⟨-, he⟩ | ⟨-, he⟩⟩
  · exact ⟨_, he, .faulted _ _ h⟩
  · exact ⟨_, he, .faulted _ _ h⟩
  · exact ⟨_, he, .faulted _ _ h⟩
  · exact ⟨_, he, .painted h hm rfl (paintsOnly_blitPixels _ _ _ _ _ _ _ _)⟩
  · exact ⟨_, he, .truncated h hm rfl (paintsOnly_blitPixels _ _ _ _ _ _ _ _)⟩

theorem execFbrd_effect (x y : Half) : AnswersEffect s (.fbrd x y) (execFbrd x y s) := by
  rcases execFbrd_held h hm x y with ⟨hin, he⟩ | ⟨-, he⟩
  · exact ⟨_, he, .pixelRead x y h hm hin⟩
  · exact ⟨_, he, .faulted _ _ h⟩

end commands

/-- Every command answers a next state, in one of the ways of `Effect`. -/
theorem exec_effect (i : Instr) (s : State) : AnswersEffect s i (exec i s) := by
  by_cases h : s.cause = 0
  · cases i with
    | fbinit => exact execFbinit_effect h
    | palq c => exact ⟨_, execPalq_eq h c, .paletteRead c h⟩
    | fbfree => exact exec_effect_of_held h nofun nofun fun _ hm => ⟨_, execFbfree_held h hm, .released h hm⟩
    | fill y h' c => exact exec_effect_of_held h nofun nofun fun _ hm => execFill_effect h hm y h' c
    | glyph x y c sc a => exact exec_effect_of_held h nofun nofun fun _ hm => execGlyph_effect h hm x y c sc a
    | icon x y c sc a => exact exec_effect_of_held h nofun nofun fun _ hm => execIcon_effect h hm x y c sc a
    | scanout => exact exec_effect_of_held h nofun nofun fun _ hm => ⟨_, execScanout_held h hm, .scanned h hm⟩
    | fbrd x y => exact exec_effect_of_held h nofun nofun fun _ hm => execFbrd_effect h hm x y
  · exact ⟨s, exec_discards h i, .discarded i h⟩

theorem effect_of_exec {i : Instr} {s t : State} (e : exec i s = .next t) : Effect s i t := by
  obtain ⟨t', e', heff⟩ := exec_effect i s
  cases e.symm.trans e'
  exact heff

/-! What commands leave unchanged. -/

/-- `t` has the parameters, the assets, the host's side and the delivered events of `s`. -/
abbrev KeepsConstants (s t : State) : Prop :=
  t.params = s.params ∧ t.asset = s.asset ∧ t.script = s.script ∧ t.pc = s.pc ∧ t.delivered = s.delivered ∧
    t.reads = s.reads

theorem KeepsConstants.refl (s : State) : KeepsConstants s s := ⟨rfl, rfl, rfl, rfl, rfl, rfl⟩

theorem KeepsConstants.drawAlloc (s : State) : KeepsConstants s (drawAlloc s).2 :=
  ⟨drawAlloc_params s, drawAlloc_asset s, drawAlloc_script s, drawAlloc_pc s, drawAlloc_delivered s, drawAlloc_reads s⟩

theorem Effect.keepsConstants {i : Instr} {s t : State} (e : Effect s i t) : KeepsConstants s t := by
  cases e with
  | allocated | allocationFailed => exact .drawAlloc s
  | _ => exact .refl s

/-- Settles O13. -/
theorem commandsKeepConstants : Obligations.CommandsKeepConstants := fun _ _ _ e => (effect_of_exec e).keepsConstants

/-- Settles O15. -/
theorem onlyScanoutEmits : Obligations.OnlyScanoutEmits := by
  intro i s t hi e
  cases effect_of_exec e with
  | scanned => exact absurd rfl hi
  | allocated | allocationFailed => exact ⟨drawAlloc_trace s, drawAlloc_lb s⟩
  | _ => exact ⟨rfl, rfl⟩

/-- RESULT stays, or the command is a PALQ or an FBRD that completes (R30). -/
theorem Effect.result_cases {i : Instr} {s t : State} (e : Effect s i t) :
    t.result = s.result ∨ t.cause = 0 ∧ ((∃ c, i = .palq c) ∨ ∃ x y, i = .fbrd x y) := by
  cases e with
  | pixelRead x y h => exact .inr ⟨h, .inr ⟨x, y, rfl⟩⟩
  | paletteRead c h => exact .inr ⟨h, .inl ⟨c, rfl⟩⟩
  | allocated | allocationFailed => exact .inl (drawAlloc_result s)
  | _ => exact .inl rfl

theorem Effect.palq_result {c : Colour} {s t : State} (e : Effect s (.palq c) t) (ht : t.cause = 0) :
    t.result = color s.params c := by
  cases e with
  | paletteRead => rfl
  | discarded _ h => exact absurd ht h
  | faulted _ f => exact absurd ht f.code_ne_zero
  | painted _ _ hc | truncated _ _ hc => cases hc

theorem Effect.fbrd_result {x y : Half} {s t : State} (e : Effect s (.fbrd x y) t) (ht : t.cause = 0) :
    ∃ v, s.cell (pix s.params x.toNat y.toNat) = some v ∧ t.result = v.setWidth 16 := by
  cases e with
  | pixelRead _ _ _ hm => exact ⟨_, by rw [State.cell, hm]; rfl, rfl⟩
  | discarded _ h => exact absurd ht h
  | faulted _ f => exact absurd ht f.code_ne_zero
  | painted _ _ hc | truncated _ _ hc => cases hc

/-- Settles O16, from the ways a command can treat RESULT. -/
theorem resultWrittenByReadsOnly : Obligations.ResultWrittenByReadsOnly := by
  intro i s t e
  have heff := effect_of_exec e
  refine ⟨fun ht => ?_, fun hf hp => ?_, ?_, ?_⟩
  · exact heff.result_cases.resolve_right fun ⟨h0, _⟩ => ht h0
  · refine heff.result_cases.resolve_right ?_
    rintro ⟨-, ⟨c, hi⟩ | ⟨x, y, hi⟩⟩
    · exact hp c hi
    · exact hf x y hi
  · rintro c rfl ht
    exact heff.palq_result ht
  · rintro x y rfl ht
    exact heff.fbrd_result ht

theorem Effect.fbv_eq {i : Instr} {s t : State} (e : Effect s i t) (hi : i ≠ .fbinit) (hf : i ≠ .fbfree) :
    t.fbv = s.fbv := by
  cases e with
  | allocated | allocationFailed => exact absurd rfl hi
  | released => exact absurd rfl hf
  | painted _ hm | truncated _ hm => exact (congrArg Option.isSome hm).symm
  | _ => rfl

@[simp] theorem faultFlag_iff (s : State) : s.faultFlag = true ↔ s.cause ≠ 0 := bne_iff_ne

/-- Settles O17: FAULT is a view of CAUSE, and a faulted machine discards the command. -/
theorem heldFlagWrittenByLifecycleOnly : Obligations.HeldFlagWrittenByLifecycleOnly := by
  intro i s t e
  refine ⟨(effect_of_exec e).fbv_eq, faultFlag_iff t, fun hne => ?_⟩
  have hs : s.cause = 0 := by
    by_contra hs
    cases (exec_discards hs i).symm.trans e
    exact hne rfl
  refine ⟨hs, fun ht => hne ?_⟩
  rw [State.faultFlag, State.faultFlag, hs, ht]

end Sys2Proof.Machine
end

section
/-! SUPPORT. What a word, an action of the host and a step leave unchanged. -/
namespace Sys2Proof.Machine

theorem issue_legal {w : Cmd} {i : Instr} (hd : decode w = .ok i) (s : State) : issue w s = exec i s := by
  rw [issue, hd]

theorem issue_illegal {w : Cmd} {r : DecodeError} (hd : decode w = .error r) (s : State) :
    issue w s = acceptIllegal w s := by
  rw [issue, hd]

/-- A faulted machine discards every word (R198). -/
theorem issue_discards {s : State} (h : s.cause ≠ 0) (w : Cmd) : issue w s = .next s := by
  cases hd : decode w with
  | ok i => exact (issue_legal hd s).trans (exec_discards h i)
  | error r => exact (issue_illegal hd s).trans (congrArg _ (accept_discards h _))

/-- A word answers a next state and leaves what a command leaves, legal or not. -/
theorem issue_keepsConstants (w : Cmd) (s : State) : ∃ t, issue w s = .next t ∧ KeepsConstants s t := by
  cases hd : decode w with
  | ok i =>
    obtain ⟨t, e, heff⟩ := exec_effect i s
    exact ⟨t, (issue_legal hd s).trans e, heff.keepsConstants⟩
  | error r =>
    refine ⟨_, issue_illegal hd s, ?_⟩
    rcases accept_cases s (raise .illegalCommand w s) with ⟨-, he⟩ | ⟨-, he⟩ <;> rw [he]
    · exact .refl s
    · exact .refl s

/-- Settles O8. -/
theorem stepRunsDecodedCommand : Obligations.StepRunsDecodedCommand :=
  fun _ _ _ _ hs hd => (step_performs hs).trans (issue_legal hd _)

theorem abandoned_params (w : Cmd) (k : Nat) (s : State) : (abandoned w k s).params = s.params := by
  rcases abandoned_cases w k s with he | ⟨m, -, he⟩ <;> rw [he]
  rfl

theorem perform_params {act : HostAction} {s t : State} (e : perform act s = .next t) : t.params = s.params := by
  cases act with
  | command w =>
    obtain ⟨t', e', hp, -⟩ := issue_keepsConstants w (countWord s)
    cases e.symm.trans e'
    exact hp
  | reset => cases e; rfl
  | resetDuring w k => cases e; exact abandoned_params w k s
  | writeAsset a b =>
    rcases rewriteAsset_cases a b s with ⟨-, e'⟩ | ⟨-, e'⟩ <;> cases e.symm.trans e'
    rfl
  | readStatus n => cases e; rfl

theorem step_params {s t : State} (e : step s = .next t) : t.params = s.params := by
  rcases step_cases s with ⟨-, e'⟩ | ⟨act, rest, -, e'⟩
  · cases e.symm.trans e'
    rfl
  · exact perform_params (s := advance s rest) (e'.symm.trans e)

/-- Settles O14: the port widens the 16 bits of each dimension, which keeps its value. -/
theorem dimensionsNeverChange : Obligations.DimensionsNeverChange :=
  fun _ => ⟨BitVec.toNat_setWidth_of_le (by decide), BitVec.toNat_setWidth_of_le (by decide), fun _ e => step_params e⟩

/-- `t` has the registers, the framebuffer, the line buffer and the events of `s`: all of the SRB but the assets. -/
abbrev KeepsSrb (s t : State) : Prop :=
  t.cause = s.cause ∧ t.fcmd = s.fcmd ∧ t.result = s.result ∧ t.fb = s.fb ∧ t.lb = s.lb ∧ t.trace = s.trace ∧
    t.delivered = s.delivered

theorem KeepsSrb.refl (s : State) : KeepsSrb s s := ⟨rfl, rfl, rfl, rfl, rfl, rfl, rfl⟩

/-- An asset rewrite or a status read leaves the SRB, the script and the count of words (R25, R63). -/
theorem perform_noCommand {act : HostAction} {s t : State} (hr : assertsReset act = false) (hw : ∀ w, act ≠ .command w)
    (e : perform act s = .next t) : KeepsSrb s t ∧ t.script = s.script ∧ t.pc = s.pc := by
  cases act with
  | command w => exact absurd rfl (hw w)
  | reset => cases hr
  | resetDuring w k => cases hr
  | writeAsset a b =>
    rcases rewriteAsset_cases a b s with ⟨-, e'⟩ | ⟨-, e'⟩ <;> cases e.symm.trans e'
    exact ⟨.refl s, rfl, rfl⟩
  | readStatus n => cases e; exact ⟨.refl s, rfl, rfl⟩

theorem perform_faulted {act : HostAction} {s t : State} (h : s.cause ≠ 0) (hr : assertsReset act = false)
    (e : perform act s = .next t) : KeepsSrb s t := by
  by_cases hw : ∃ w, act = .command w
  · obtain ⟨w, rfl⟩ := hw
    cases (issue_discards (s := countWord s) h w).symm.trans e
    exact KeepsSrb.refl s
  · exact (perform_noCommand hr (not_exists.1 hw) e).1

/-- Settles O12: of the actions without `rst` a word is discarded and the others leave the SRB alone. -/
theorem faultedUntilReset : Obligations.FaultedUntilReset := by
  intro s t h hr e
  rcases step_cases s with ⟨-, e'⟩ | ⟨act, rest, hs, e'⟩
  · cases e.symm.trans e'
    exact KeepsSrb.refl s
  · exact perform_faulted (s := advance s rest) h (hr act rest hs) (e'.symm.trans e)

end Sys2Proof.Machine
end

section
/-! SUPPORT. The run of a program (spec/70_reset_and_hazards.md R227): a step issues a word of it, starts it anew, or
leaves it where it is. -/
namespace Sys2Proof.Machine

/-- A word is taken off the script and counted, whatever it does (R21). -/
theorem step_command {s : State} {w : Cmd} {rest : List HostAction} (hs : s.script = .command w :: rest) :
    ∃ t, step s = .next t ∧ t.script = rest ∧ t.pc = s.pc + 1 := by
  obtain ⟨t, e, -, -, hscript, hpc, -⟩ := issue_keepsConstants w (countWord (advance s rest))
  exact ⟨t, (step_performs hs).trans e, hscript, hpc⟩

/-- `k` steps of a host that issues words issue the first `k` of them. -/
theorem run_words {ws : List Cmd} {k : Nat} (hk : k ≤ ws.length) {s : State} (hs : s.script = ws.map .command) :
    ∃ t : State, core.run k s = .next t ∧ t.script = (ws.drop k).map .command ∧ t.pc = s.pc + k := by
  induction k generalizing ws s with
  | zero => exact ⟨s, rfl, hs, rfl⟩
  | succ k ih =>
    cases ws with
    | nil => cases hk
    | cons w ws =>
      obtain ⟨u, e, hscript, hpc⟩ := step_command hs
      obtain ⟨t, erun, htscript, htpc⟩ := ih (Nat.le_of_succ_le_succ hk) hscript
      exact ⟨t, (run_next core e).trans erun, htscript, by omega⟩

/-- A loaded program is at word `k` after `k` steps. -/
theorem run_loadProgram {P : List Cmd} {s : State} (h0 : s.pc = 0) {k : Nat} (hk : k ≤ P.length) :
    ∃ t : State, core.run k (loadProgram P s) = .next t ∧ t.follows P ∧ (t.ended P ↔ k = P.length) := by
  obtain ⟨t, e, hscript, hpc⟩ := run_words (s := loadProgram P s) hk rfl
  have hpc : t.pc = k := by rw [hpc, show (loadProgram P s).pc = 0 from h0, Nat.zero_add]
  refine ⟨t, e, ?_, by rw [State.ended, hpc]⟩
  rw [State.follows, hscript, wordsBeforeReset_loaded, hpc]

theorem wordsBeforeReset_noCommand {act : HostAction} (hr : assertsReset act = false) (hw : ∀ w, act ≠ .command w)
    (rest : List HostAction) : wordsBeforeReset (act :: rest) = wordsBeforeReset rest := by
  cases act with
  | command w => exact absurd rfl (hw w)
  | reset => cases hr
  | resetDuring w k => cases hr
  | writeAsset a b => rfl
  | readStatus n => rfl

theorem runResult_eq {s t : State} (h : KeepsSrb s t) : t.runResult = s.runResult := by
  obtain ⟨hcause, hfcmd, hresult, hfb, -, htrace, -⟩ := h
  simp only [State.runResult, State.status, State.faultFlag, State.fbv, State.busy, hcause, hfcmd, hresult, hfb, htrace]

/-- In a run of `P`, a step that is no `rst` stays in it; it issues a word, and then the run had not ended, or leaves the
SRB and the count of words as they are (R227). -/
theorem follows_step {P : List Cmd} {s t : State} (hf : s.follows P)
    (hr : ∀ act rest, s.script = act :: rest → assertsReset act = false) (e : step s = .next t) :
    t.follows P ∧ (¬s.ended P ∨ KeepsSrb s t ∧ t.pc = s.pc) := by
  rcases step_cases s with ⟨-, e'⟩ | ⟨act, rest, hs, e'⟩
  · cases e.symm.trans e'
    exact ⟨hf, .inr ⟨.refl s, rfl⟩⟩
  · by_cases hw : ∃ w, act = .command w
    · obtain ⟨w, rfl⟩ := hw
      obtain ⟨t', e', hscript, hpc⟩ := step_command hs
      cases e.symm.trans e'
      refine ⟨by rw [State.follows, hscript, hpc]; exact (follows_command hf hs).2, .inl fun he => ?_⟩
      have hnil := ended_leaves_no_word hf he
      rw [hs, wordsBeforeReset_command] at hnil
      cases hnil
    · have hact := hr act rest hs
      obtain ⟨hsrb, hscript, hpc⟩ := perform_noCommand hact (not_exists.1 hw) (e'.symm.trans e)
      refine ⟨?_, .inr ⟨hsrb, hpc⟩⟩
      rw [State.follows, hs, wordsBeforeReset_noCommand hact (not_exists.1 hw)] at hf
      rw [State.follows, hscript, hpc]
      exact hf

theorem step_assertsReset_pc {s t : State} {act : HostAction} {rest : List HostAction} (hs : s.script = act :: rest)
    (hr : assertsReset act = true) (e : step s = .next t) : t.pc = 0 := by
  have hperform := (step_performs hs).symm.trans e
  cases act with
  | reset => cases hperform; rfl
  | resetDuring w k => cases hperform; rfl
  | command w => cases hr
  | writeAsset a b => cases hr
  | readStatus n => cases hr

/-- Settles O60: the run of a loaded program, what a step within a run keeps, and the count that `rst` clears. -/
theorem runEndsWithItsLastWord : Obligations.RunEndsWithItsLastWord := by
  intro P
  refine ⟨fun s h0 k hk => run_loadProgram h0 hk, fun s t hf hr e => ?_, fun s t act rest hs hr e => ?_⟩
  · obtain ⟨ht, hstep⟩ := follows_step hf hr e
    refine ⟨ht, fun he => ?_⟩
    obtain ⟨hsrb, hpc⟩ := hstep.resolve_left (not_not.2 he)
    have ⟨hcause, _⟩ := hsrb
    refine ⟨hpc.trans he, runResult_eq hsrb, ?_⟩
    rw [State.endedSuccessfully, State.endedSuccessfully, State.ended, State.ended, hpc, hcause]
  · rw [State.ended, step_assertsReset_pc hs hr e, eq_comm, List.length_eq_zero_iff]

end Sys2Proof.Machine
end

section
/-! SUPPORT. The status port and reset (spec/10_state.md R24 to R38). -/
namespace Sys2Proof.Machine

theorem status_eq_zero {s : State} (hfb : s.fb = none) (hcause : s.cause = 0) : s.status = 0 := by
  rw [State.status, State.faultFlag, State.fbv, State.busy, hfb, hcause]
  rfl

/-- Bits 0, 1 and 2 of STATUS are BUSY, FBV and FAULT, and every other bit is 0 (R26). -/
theorem status_getLsbD (s : State) (k : Nat) : s.status.getLsbD k =
    if k = 0 then s.busy else if k = 1 then s.fbv else if k = 2 then s.faultFlag else false := by
  match k with
  | 0 => exact BitVec.getLsbD_concat_zero
  | 1 => exact BitVec.getLsbD_concat_succ.trans BitVec.getLsbD_concat_zero
  | 2 => exact BitVec.getLsbD_concat_succ.trans (BitVec.getLsbD_concat_succ.trans BitVec.getLsbD_concat_zero)
  | k + 3 =>
    exact BitVec.getLsbD_concat_succ.trans
      (BitVec.getLsbD_concat_succ.trans (BitVec.getLsbD_concat_succ.trans BitVec.getLsbD_zero))

/-- Settles O23. -/
theorem statusBits : Obligations.StatusBits := by
  intro s
  simp only [status_getLsbD]
  refine ⟨rfl, rfl, ?_, fun k hk => ?_⟩
  · exact Bool.eq_iff_iff.2 (by simp)
  · rw [if_neg (by omega), if_neg (by omega), if_neg (by omega)]

/-- Settles O24. -/
theorem statusPortReads : Obligations.StatusPortReads := by
  intro s
  refine ⟨⟨rfl, rfl, rfl, rfl, rfl, rfl, fun n hn => ?_⟩, fun n rest hs => step_performs hs⟩
  obtain ⟨k, rfl⟩ := Nat.exists_eq_add_of_le' hn
  rfl

/-- Settles O25. -/
theorem resetValues : Obligations.ResetValues :=
  ⟨status_eq_zero rfl rfl, rfl, rfl, rfl, rfl, rfl, rfl, rfl, rfl, rfl, rfl, rfl⟩

/-- Settles O26. -/
theorem resetFromAnyState : Obligations.ResetFromAnyState :=
  fun s rest hs => ⟨afterReset (advance s rest), step_performs hs, status_eq_zero rfl rfl, rfl, rfl, rfl, rfl, rfl,
    rfl, rfl, rfl, rfl, rfl⟩

end Sys2Proof.Machine
end

section
/-! SUPPORT. The memories as a command can observe them (spec/20_memory.md R53, R60, R63): reads determine a canonical
memory, and commands read asset bytes inside the asset space only. -/
namespace Sys2Proof.Machine

/-! A canonical memory is determined by its reads. -/

theorem Memory.mem_iff_read {m : Memory} (hm : Memory.wf m) {k : Nat} {v : Byte} :
    (k, v) ∈ m ↔ Memory.read m k = v ∧ v ≠ Memory.unlisted := by
  obtain ⟨hsorted, hlisted⟩ := hm
  unfold Memory.read
  refine ⟨fun h => ⟨by rw [Memory.lookup_eq_some_of_mem hsorted h]; rfl, hlisted _ h⟩, fun ⟨hread, hv⟩ => ?_⟩
  cases hl : m.lookup k with
  | none => exact absurd (by rw [← hread, hl]; rfl) hv
  | some u =>
    obtain ⟨m₁, m₂, rfl, -⟩ := List.lookup_eq_some_iff.1 hl
    rw [hl] at hread
    cases hread
    exact List.mem_append_right _ List.mem_cons_self

theorem Memory.eq_of_read_eq {m m' : Memory} (hm : Memory.wf m) (hm' : Memory.wf m')
    (h : ∀ k, Memory.read m k = Memory.read m' k) : m = m' := by
  have : Std.Asymm fun p q : Host.Cell => p.1 < q.1 := ⟨fun _ _ => Nat.lt_asymm⟩
  refine hm.1.eq_of_mem_iff hm'.1 fun ⟨k, v⟩ => ?_
  rw [Memory.mem_iff_read hm, Memory.mem_iff_read hm', h]

/-- Settles O44: both fills are canonical and read the same at every address. -/
theorem writeOrderUnobservable : Obligations.WriteOrderUnobservable := by
  intro m ks js v hm h
  refine Memory.eq_of_read_eq (Memory.wf_fill hm ks v) (Memory.wf_fill hm js v) fun k => ?_
  simp only [Memory.read_fill, h]

/-! The host's rewrite of an asset byte. -/

/-- Settles O28, from the two outcomes of a rewrite. -/
theorem hostRewritesAssets : Obligations.HostRewritesAssets := by
  intro s a b rest hs
  rw [step_performs hs]
  rcases rewriteAsset_cases a b (advance s rest) with ⟨ha, he⟩ | ⟨ha, he⟩
  · exact ⟨fun _ => ⟨_, he, rfl, Memory.read_write s.asset a b⟩, fun hle => absurd ha (Nat.not_lt.2 hle)⟩
  · exact ⟨fun hlt => absurd hlt ha, fun _ => he⟩

/-! The asset space replaced by another: the shared operations of the commands answer the same, if what follows them does. -/

/-- `s` with the asset space `m`. -/
def State.withAssets (s : State) (m : Memory) : State := { s with asset := m }

/-- The two outcomes are next states, the second the first with the asset space `m`. -/
def AnswersAlike (m : Memory) (o o' : Host.Outcome State Fault Refusal) : Prop :=
  ∃ t, o = .next t ∧ o' = .next (t.withAssets m)

theorem answersAlike_accept {s u u' : State} {m : Memory} (hu : u' = u.withAssets m) :
    AnswersAlike m (.next (accept s u)) (.next (accept (s.withAssets m) u')) := by
  refine ⟨_, rfl, congrArg _ ?_⟩
  rcases accept_cases s u with ⟨h, he⟩ | ⟨h, he⟩ <;> rw [he]
  · exact accept_discards (s := s.withAssets m) h u'
  · exact (accept_executes (s := s.withAssets m) h u').trans hu

theorem whenHeld_withAssets {cmd : Cmd} {s : State} {m : Memory} {go go' : Memory → State}
    (hgo : ∀ f, go' f = (go f).withAssets m) :
    whenHeld cmd (s.withAssets m) go' = (whenHeld cmd s go).withAssets m := by
  rcases whenHeld_cases cmd s go with ⟨hf, he⟩ | ⟨f, hf, he⟩ <;> rw [he]
  · exact whenHeld_absent (s := s.withAssets m) hf cmd go'
  · exact (whenHeld_held (s := s.withAssets m) hf cmd go').trans (hgo f)

theorem check_withAssets {ok : Prop} [Decidable ok] {f : Cause} {cmd : Cmd} {s u u' : State} {m : Memory}
    (hu : ok → u' = u.withAssets m) : check ok f cmd (s.withAssets m) u' = (check ok f cmd s u).withAssets m := by
  by_cases h : ok
  · rw [check_passes h, check_passes h, hu h]
  · rw [check_faults h, check_faults h]
    rfl

theorem drawAlloc_withAssets (s : State) (m : Memory) :
    drawAlloc (s.withAssets m) = ((drawAlloc s).1, (drawAlloc s).2.withAssets m) := by
  cases h : s.allocIn with
  | nil => rw [drawAlloc_free h, drawAlloc_free (s := s.withAssets m) h]; rfl
  | cons b rest => rw [drawAlloc_listed h, drawAlloc_listed (s := s.withAssets m) h]; rfl

/-! The decoder's stream. -/

/-- Every byte the decoder may still read lies below address `n`, and its read address never wraps (R82, R135). -/
def Decoder.staysBelow (d : Decoder) (n : Nat) : Prop :=
  d.p.toNat + d.budget.toNat ≤ n ∧ d.p.toNat + d.budget.toNat < 2 ^ 17

theorem decoderStart_staysBelow {a : Half} {len : Byte} {n : Nat} (h : a.toNat + (3 + len.toNat) ≤ n) :
    (decoderStart a len).staysBelow n := by
  have ha := a.isLt
  have hlen := len.isLt
  have hp : (decoderStart a len).p.toNat = a.toNat + 3 := by
    have hwide : (a.setWidth 17).toNat = a.toNat := BitVec.toNat_setWidth_of_le (by decide)
    rw [decoderStart]
    bv_omega
  have hb : (decoderStart a len).budget = len := rfl
  rw [Decoder.staysBelow, hp, hb]
  omega

@[simp] theorem readStreamByte_p (s : State) (d : Decoder) : (readStreamByte s d).p = d.p + 1 := by
  unfold readStreamByte
  simp only
  split <;> rfl

theorem readStreamByte_staysBelow {d : Decoder} {n : Nat} (h : d.staysBelow n) (hb : d.budget ≠ 0) (s : State) :
    (readStreamByte s d).staysBelow n := by
  unfold Decoder.staysBelow at *
  rw [readStreamByte_p, readStreamByte_budget]
  bv_omega

theorem nextBitIn_staysBelow {s : State} {passes n : Nat} {d d' : Decoder} {b : Bool} (h : d.staysBelow n)
    (e : nextBitIn s passes d = some (b, d')) : d'.staysBelow n := by
  fun_induction nextBitIn s passes d with
  | case1 => cases e
  | case2 => cases e; exact h
  | case3 => cases e; exact h
  | case4 => cases e
  | case5 _ d _ _ hb ih => exact ih (readStreamByte_staysBelow h hb s) e

/-! What the commands read of an asset space that agrees with the machine's below `ASSET_SIZE`. -/

section reads
variable {s : State} {other : Memory} (h : ∀ k, k < s.params.assetSize → Memory.read other k = s.assetRead k)
include h

theorem readStreamByte_withAssets {d : Decoder} (hd : d.staysBelow s.params.assetSize) (hb : d.budget ≠ 0) :
    readStreamByte (s.withAssets other) d = readStreamByte s d := by
  have hp : d.p.toNat < s.params.assetSize := by
    obtain ⟨hle, -⟩ := hd
    bv_omega
  have hread : (s.withAssets other).assetRead d.p.toNat = s.assetRead d.p.toNat := h _ hp
  rw [readStreamByte, readStreamByte, hread]

theorem nextBitIn_withAssets (passes : Nat) {d : Decoder} (hd : d.staysBelow s.params.assetSize) :
    nextBitIn (s.withAssets other) passes d = nextBitIn s passes d := by
  induction passes generalizing d with
  | zero => rfl
  | succ passes ih =>
    by_cases hb : d.budget = 0
    · rw [nextBitIn, nextBitIn, if_pos hb, if_pos hb]
    · rw [nextBitIn, nextBitIn, readStreamByte_withAssets h hd hb, ih (readStreamByte_staysBelow hd hb s)]

theorem blitPixels_withAssets (x y sc : Nat) (v : Byte) (ps : List (Nat × Nat)) {d : Decoder}
    (hd : d.staysBelow s.params.assetSize) (m : Memory) :
    blitPixels (s.withAssets other) x y sc v ps d m = blitPixels s x y sc v ps d m := by
  induction ps generalizing d m with
  | nil => rfl
  | cons q ps ih =>
    obtain ⟨i, j⟩ := q
    have hbit : nextBit (s.withAssets other) d = nextBit s d := nextBitIn_withAssets h _ hd
    rw [blitPixels, blitPixels, hbit]
    cases e : nextBit s d with
    | none => rfl
    | some r =>
      obtain ⟨_ | _, d'⟩ := r
      · exact ih (nextBitIn_staysBelow hd e) m
      · exact ih (nextBitIn_staysBelow hd e) _

theorem glyphCells_withAssets {x y sc a : Nat} (ha : assetInside s.params a 6) :
    glyphCells (s.withAssets other) x y sc a = glyphCells s x y sc a := by
  refine List.flatMap_congr fun d hd => ?_
  have hread : (s.withAssets other).assetRead (a + d.1) = s.assetRead (a + d.1) :=
    h _ (by have := (mem_columnMajor.1 hd).1; omega)
  rw [hread]
  rfl

/-! The commands. -/

theorem execGlyph_alike (x y : Half) (c : Colour) (sc : Byte) (a : Half) :
    AnswersAlike other (execGlyph x y c sc a s) (execGlyph x y c sc a (s.withAssets other)) := by
  refine answersAlike_accept <| whenHeld_withAssets fun m => check_withAssets fun _ =>
    check_withAssets fun ha => check_withAssets fun _ => ?_
  rw [glyphCells_withAssets h ha]
  rfl

theorem execIcon_alike (x y : Half) (c : Colour) (sc : Byte) (a : Half) :
    AnswersAlike other (execIcon x y c sc a s) (execIcon x y c sc a (s.withAssets other)) := by
  refine answersAlike_accept <| whenHeld_withAssets fun m => check_withAssets fun _ =>
    check_withAssets fun (ha : assetInside s.params a.toNat 3) => ?_
  have hheader : ∀ k < 3, (s.withAssets other).assetRead (a.toNat + k) = s.assetRead (a.toNat + k) :=
    fun k hk => h _ (by omega)
  have hw : (s.withAssets other).assetRead a.toNat = s.assetRead a.toNat := hheader 0 (by decide)
  simp only [hw, hheader 1 (by decide), hheader 2 (by decide)]
  refine check_withAssets fun hlen => check_withAssets fun _ => ?_
  rw [blitPixels_withAssets h _ _ _ _ _ (decoderStart_staysBelow hlen)]
  exact check_withAssets (s := s.setFb _) fun _ => rfl

/-- A command that reads its asset bytes from another asset space leaves the same, but for that space (R53, R196). -/
theorem exec_alike (i : Instr) : AnswersAlike other (exec i s) (exec i (s.withAssets other)) := by
  cases i with
  | fbinit =>
    refine answersAlike_accept <| check_withAssets fun _ => ?_
    rw [drawAlloc_withAssets]
    exact check_withAssets fun _ => rfl
  | fbfree => exact answersAlike_accept <| whenHeld_withAssets fun _ => rfl
  | fill y h' c => exact answersAlike_accept <| whenHeld_withAssets fun _ => check_withAssets fun _ => rfl
  | glyph x y c sc a => exact execGlyph_alike h x y c sc a
  | icon x y c sc a => exact execIcon_alike h x y c sc a
  | scanout => exact answersAlike_accept <| whenHeld_withAssets fun _ => rfl
  | fbrd x y => exact answersAlike_accept <| whenHeld_withAssets fun _ => check_withAssets fun _ => rfl
  | palq c => exact answersAlike_accept rfl

end reads

/-- Settles O34. -/
theorem assetReadsStayInside : Obligations.AssetReadsStayInside := by
  intro i s t t' other h e e'
  obtain ⟨u, hu, hu'⟩ := exec_alike h i
  cases e.symm.trans hu
  cases e'.symm.trans hu'
  rfl

end Sys2Proof.Machine
end

section
/-! SUPPORT. The encoding (spec/30_encoding.md R81 to R92): the decoder and the encoder are inverse to each other, and
the words that spell a row of R84 are the words of commands. -/
namespace Sys2Proof

/-! The value of a word. -/

theorem toNat_append_eq_add {m n : Nat} (u : BitVec m) (v : BitVec n) : (u ++ v).toNat = u.toNat * 2 ^ n + v.toNat := by
  rw [BitVec.toNat_append, ← Nat.shiftLeft_add_eq_or_of_lt v.isLt, Nat.shiftLeft_eq]

/-- The value of a packed word, its fields at their places (R81). -/
theorem toNat_pack (op : BitVec 4) (c : Colour) (s : Byte) (a y x : Half) :
    (pack op c s a y x).toNat =
      op.toNat * 2 ^ 60 + c.toNat * 2 ^ 56 + s.toNat * 2 ^ 48 + a.toNat * 2 ^ 32 + y.toNat * 2 ^ 16 + x.toNat := by
  simp only [pack, toNat_append_eq_add]
  omega

/-- Settles O4: a word is packed from its fields. -/
theorem commandWordFields : Obligations.CommandWordFields :=
  ⟨fun w => (congrArg BitVec.toNat (pack_fields w)).symm.trans (toNat_pack ..), toNat_pack⟩

/-! The decoder. -/

@[simp] theorem ifReservedZero_eq_ok {ok : Bool} {i j : Instr} : ifReservedZero ok i = .ok j ↔ ok = true ∧ i = j := by
  cases ok <;> simp [ifReservedZero]

/-- An opcode that no row has is refused, whatever the other fields hold (R86). -/
theorem decode_reservedOpcode {w : Cmd} (h : (fieldOp w).toNat = 0 ∨ 9 ≤ (fieldOp w).toNat) :
    decode w = .error .reservedOpcode := by
  unfold decode
  split
  case h_9 => rfl
  all_goals omega

/-- The decoder finds in each field of a command's word what the encoder put there (R81, R84). -/
theorem decode_encode (i : Instr) : decode (encode i) = .ok i := by
  cases i <;> simp [encode, decode]

/-- The opcode of a command (R83). -/
def opcodeOf : Instr → BitVec 4
  | .fbinit => 0x1
  | .fbfree => 0x2
  | .fill _ _ _ => 0x3
  | .glyph _ _ _ _ _ => 0x4
  | .icon _ _ _ _ _ => 0x5
  | .scanout => 0x6
  | .fbrd _ _ => 0x7
  | .palq _ => 0x8

/-- The fields that R84 marks 0 for a command are zero in `w` (R85). -/
def ReservedZero (w : Cmd) : Instr → Prop
  | .fbinit | .fbfree | .scanout => fieldC w = 0 ∧ fieldS w = 0 ∧ fieldA w = 0 ∧ fieldY w = 0 ∧ fieldX w = 0
  | .fill _ _ _ => fieldS w = 0 ∧ fieldX w = 0
  | .glyph _ _ _ _ _ | .icon _ _ _ _ _ => True
  | .fbrd _ _ => fieldC w = 0 ∧ fieldS w = 0 ∧ fieldA w = 0
  | .palq _ => fieldS w = 0 ∧ fieldA w = 0 ∧ fieldY w = 0 ∧ fieldX w = 0

/-- The command with the mnemonic of `i` and its operands from the fields of `w` (R90). -/
def withOperandsOf (w : Cmd) : Instr → Instr
  | .fbinit => .fbinit
  | .fbfree => .fbfree
  | .fill _ _ _ => .fill (fieldY w) (fieldA w) (fieldC w)
  | .glyph _ _ _ _ _ => .glyph (fieldX w) (fieldY w) (fieldC w) (fieldS w) (fieldA w)
  | .icon _ _ _ _ _ => .icon (fieldX w) (fieldY w) (fieldC w) (fieldS w) (fieldA w)
  | .scanout => .scanout
  | .fbrd _ _ => .fbrd (fieldX w) (fieldY w)
  | .palq _ => .palq (fieldC w)

@[simp] theorem rowOf_withOperandsOf (w : Cmd) (i : Instr) : rowOf (withOperandsOf w i) = rowOf i := by cases i <;> rfl

theorem fieldOp_eq_ofNat {w : Cmd} {n : Nat} (h : (fieldOp w).toNat = n) : fieldOp w = BitVec.ofNat 4 n := by
  rw [← h, BitVec.ofNat_toNat, BitVec.setWidth_eq]

/-- What the decoder has tested and read of a word it accepts. -/
theorem fields_of_decode {w : Cmd} {i : Instr} (h : decode w = .ok i) :
    fieldOp w = opcodeOf i ∧ ReservedZero w i ∧ withOperandsOf w i = i := by
  unfold decode at h
  split at h <;> rename_i hop <;>
    simp only [ifReservedZero_eq_ok, Bool.and_eq_true, beq_iff_eq, and_assoc, Except.ok.injEq, reduceCtorEq] at h
  case h_4 | h_5 =>
    subst h
    exact ⟨fieldOp_eq_ofNat hop, trivial, rfl⟩
  case h_1 | h_2 | h_6 =>
    obtain ⟨hc, hs, ha, hy, hx, rfl⟩ := h
    exact ⟨fieldOp_eq_ofNat hop, ⟨hc, hs, ha, hy, hx⟩, rfl⟩
  case h_3 =>
    obtain ⟨hs, hx, rfl⟩ := h
    exact ⟨fieldOp_eq_ofNat hop, ⟨hs, hx⟩, rfl⟩
  case h_7 =>
    obtain ⟨hc, hs, ha, rfl⟩ := h
    exact ⟨fieldOp_eq_ofNat hop, ⟨hc, hs, ha⟩, rfl⟩
  case h_8 =>
    obtain ⟨hs, ha, hy, hx, rfl⟩ := h
    exact ⟨fieldOp_eq_ofNat hop, ⟨hs, ha, hy, hx⟩, rfl⟩

/-- A word with the opcode of a command and zero in the fields reserved there is a word of that command. -/
theorem encode_withOperandsOf {w : Cmd} {i : Instr} (hop : fieldOp w = opcodeOf i) (hz : ReservedZero w i) :
    encode (withOperandsOf w i) = w := by
  refine Eq.trans ?_ (pack_fields w)
  cases i <;> simp_all [encode, withOperandsOf, opcodeOf, ReservedZero]

/-- A word decodes to the command it is the word of, and to no other. -/
theorem decode_eq_ok_iff {w : Cmd} {i : Instr} : decode w = .ok i ↔ encode i = w := by
  constructor
  · intro h
    obtain ⟨hop, hz, hi⟩ := fields_of_decode h
    rw [← hi, encode_withOperandsOf hop hz]
  · rintro rfl
    exact decode_encode i

/-- Settles O1. -/
theorem decodeOfEncode : Obligations.DecodeOfEncode := decode_encode

/-- Settles O2. -/
theorem encodeOfDecode : Obligations.EncodeOfDecode := fun _ _ => decode_eq_ok_iff.1

/-- Settles O5: a word decodes to the command it encodes. -/
theorem workedEncodings : Obligations.WorkedEncodings := by
  unfold Obligations.WorkedEncodings
  simp only [decode_eq_ok_iff]
  decide

/-! The rows of R84. -/

/-- Two words are equal when their fields are. -/
theorem cmd_eq_iff_fields (w w' : Cmd) : w = w' ↔ fieldOp w = fieldOp w' ∧ fieldC w = fieldC w' ∧ fieldS w = fieldS w' ∧
    fieldA w = fieldA w' ∧ fieldY w = fieldY w' ∧ fieldX w = fieldX w' := by
  constructor
  · rintro rfl
    simp
  · rintro ⟨hop, hc, hs, ha, hy, hx⟩
    rw [← pack_fields w, hop, hc, hs, ha, hy, hx, pack_fields]

/-- A word spells a row when each of its fields, masked, is that of the pattern. -/
theorem Row.spells_iff (r : Row) (w : Cmd) : r.spells w = true ↔
    fieldOp w &&& fieldOp r.mask = fieldOp r.pattern ∧ fieldC w &&& fieldC r.mask = fieldC r.pattern ∧
    fieldS w &&& fieldS r.mask = fieldS r.pattern ∧ fieldA w &&& fieldA r.mask = fieldA r.pattern ∧
    fieldY w &&& fieldY r.mask = fieldY r.pattern ∧ fieldX w &&& fieldX r.mask = fieldX r.pattern := by
  rw [Row.spells, beq_iff_eq, ← pack_fields w, ← pack_fields r.mask, pack_and, cmd_eq_iff_fields]
  simp only [fieldOp_pack, fieldC_pack, fieldS_pack, fieldA_pack, fieldY_pack, fieldX_pack]

@[simp] theorem and_fullMask4 (v : BitVec 4) : v &&& 0xF#4 = v := BitVec.and_allOnes
@[simp] theorem and_fullMask8 (v : BitVec 8) : v &&& 0xFF#8 = v := BitVec.and_allOnes
@[simp] theorem and_fullMask16 (v : BitVec 16) : v &&& 0xFFFF#16 = v := BitVec.and_allOnes

/-- A word spells the row of a command exactly when its opcode is the command's and every field reserved there is zero. -/
theorem spells_rowOf_iff (i : Instr) (w : Cmd) :
    (rowOf i).spells w = true ↔ fieldOp w = opcodeOf i ∧ ReservedZero w i := by
  cases i <;> simp [Row.spells_iff, rowOf, opcodeOf, ReservedZero, fieldOp, fieldC, fieldS, fieldA, fieldY, fieldX]

/-- A word that spells the row of a command decodes to a command of that row. -/
theorem decode_of_spells {i : Instr} {w : Cmd} (h : (rowOf i).spells w = true) : decode w = .ok (withOperandsOf w i) := by
  obtain ⟨hop, hz⟩ := (spells_rowOf_iff i w).1 h
  exact decode_eq_ok_iff.2 (encode_withOperandsOf hop hz)

theorem spells_of_decode {w : Cmd} {i : Instr} (h : decode w = .ok i) : (rowOf i).spells w = true := by
  obtain ⟨hop, hz, -⟩ := fields_of_decode h
  exact (spells_rowOf_iff i w).2 ⟨hop, hz⟩

theorem mem_rows_iff {r : Row} : r ∈ rows ↔ ∃ i, rowOf i = r := by
  constructor
  · intro h
    simp only [rows, List.mem_cons, List.not_mem_nil, or_false] at h
    rcases h with rfl | rfl | rfl | rfl | rfl | rfl | rfl | rfl <;> exact ⟨_, rfl⟩
  · rintro ⟨i, rfl⟩
    cases i <;> simp [rows, rowOf]

theorem wellFormedWord_iff (w : Cmd) : wellFormedWord w = true ↔ ∃ i, decode w = .ok i := by
  simp only [wellFormedWord, List.any_eq_true, mem_rows_iff]
  constructor
  · rintro ⟨_, ⟨i, rfl⟩, h⟩
    exact ⟨_, decode_of_spells h⟩
  · rintro ⟨i, h⟩
    exact ⟨_, ⟨i, rfl⟩, spells_of_decode h⟩

/-- The rows are disjoint: a word that spells two would decode to a command of each. -/
theorem row_eq_of_spells {w : Cmd} {r r' : Row} (hr : r ∈ rows) (hr' : r' ∈ rows) (h : r.spells w = true)
    (h' : r'.spells w = true) : r = r' := by
  obtain ⟨i, rfl⟩ := mem_rows_iff.1 hr
  obtain ⟨j, rfl⟩ := mem_rows_iff.1 hr'
  have hij : withOperandsOf w i = withOperandsOf w j :=
    Except.ok.inj ((decode_of_spells h).symm.trans (decode_of_spells h'))
  simpa using congrArg rowOf hij

/-- Settles O3. -/
theorem decodeAcceptsTableRows : Obligations.DecodeAcceptsTableRows :=
  ⟨wellFormedWord_iff, fun _ _ => spells_of_decode, fun _ _ _ => row_eq_of_spells⟩

end Sys2Proof
end

section
/-! SUPPORT. What an illegal word does (spec/30_encoding.md R86), and the lines that assemble (R90). -/
namespace Sys2Proof.Machine

/-- A machine without a fault takes IllegalCommand on a word that does not decode: CAUSE and FCMD are written, nothing
else (R191, R200). -/
theorem issue_illegal_faults {w : Cmd} {r : DecodeError} (hd : decode w = .error r) {s : State} (h : s.cause = 0) :
    issue w s = .next { s with cause := 1, fcmd := w } :=
  (issue_illegal hd s).trans (congrArg _ (accept_executes h _))

/-- Settles O6: a reserved opcode does not decode. -/
theorem reservedOpcodesAreIllegal : Obligations.ReservedOpcodesAreIllegal := by
  refine ⟨fun w hop => ⟨fun i hi => ?_, fun s h => issue_illegal_faults (decode_reservedOpcode hop) h⟩, fun s h => ⟨?_, ?_⟩⟩
  · cases (decode_reservedOpcode hop).symm.trans hi
  · exact issue_illegal_faults (decode_reservedOpcode (.inl (by decide))) h
  · exact issue_illegal_faults (decode_reservedOpcode (.inr (by decide))) h

/-! The assembler. -/

/-- The operands of a command fit their fields, whose widths they have. -/
theorem fits_lineOf (i : Instr) : (lineOf i).fits = true := by
  cases i <;> simp [lineOf, AsmLine.fits] <;> omega

theorem assembleCommand_lineOf (i : Instr) : assembleCommand (lineOf i) = some i := by
  unfold assembleCommand
  rw [if_pos (fits_lineOf i)]
  cases i <;> simp [lineOf]

/-- Only a line whose operands fit assembles (R90). -/
theorem fits_of_assembleCommand {l : AsmLine} {i : Instr} (h : assembleCommand l = some i) : l.fits = true := by
  by_contra hf
  unfold assembleCommand at h
  rw [if_neg hf] at h
  cases h

/-- Operands that fit are not truncated: the command has the very operands of its line (R90). -/
theorem eq_lineOf_of_assembleCommand {l : AsmLine} {i : Instr} (h : assembleCommand l = some i) : l = lineOf i := by
  have hf := fits_of_assembleCommand h
  unfold assembleCommand at h
  rw [if_pos hf] at h
  cases l <;> cases h
  all_goals
    simp only [AsmLine.fits, Bool.and_eq_true, decide_eq_true_eq] at hf
    simp (disch := omega) only [lineOf, BitVec.toNat_ofNat, Nat.mod_eq_of_lt]

/-- Settles O59. -/
theorem assemblerNeverTruncates : Obligations.AssemblerNeverTruncates :=
  ⟨assembleCommand_lineOf, fun _ _ => eq_lineOf_of_assembleCommand⟩

end Sys2Proof.Machine
end

section
/-! SUPPORT. What the palette is looked up with and what it answers: the conversion's mask on a held cell (R113), and PALQ
(R112). -/
namespace Sys2Proof.Machine

/-- A byte of a held framebuffer is a colour index (R160). -/
theorem State.Inv.read_lt {s : State} (hs : s.Inv) {m : Memory} (hm : s.fb = some m) (k : Nat) :
    (Memory.read m k).toNat < 16 := by
  obtain ⟨-, -, hcells⟩ := hs.framebuffer hm
  exact Memory.read_lt (by decide) hcells k

/-- The mask of bits 3:0 keeps a byte whose bits 7:4 are zero. -/
theorem and_lowNibble_of_lt {v : Byte} (h : v.toNat < 16) : v &&& 0x0F = v :=
  BitVec.eq_of_toNat_eq (Nat.and_two_pow_sub_one_of_lt_two_pow (n := 4) h)

/-- Settles O21. -/
theorem maskChangesNoCell : Obligations.MaskChangesNoCell := fun _ _ k hs hm => and_lowNibble_of_lt (hs.read_lt hm k)

/-- Settles O45. -/
theorem palqReadsPalette : Obligations.PalqReadsPalette := fun _ c =>
  ⟨fun h => execPalq_eq h c, fun h => exec_discards h (.palq c)⟩

end Sys2Proof.Machine
end

section
/-! SUPPORT. The glyph blitter (spec/41_glyph.md R121 to R125): which pixels the blocks of a drawing hold, and GLYPH's
checks in their order. -/
namespace Sys2Proof.Machine

/-- `SMAX` is the largest scale its field holds, so zero is the only scale that is not legal (R195). -/
theorem scaleLegal_iff {sc : Byte} : scaleLegal sc ↔ sc ≠ 0 := by
  have hlt := sc.isLt
  have hne : sc ≠ 0 ↔ sc.toNat ≠ 0 := BitVec.toNat_ne
  rw [hne, scaleLegal, Config.smax]
  omega

/-! The blocks of a drawing. -/

/-- Dividing the offset from the origin by the scale gives the source coordinate whose block a pixel lies in. -/
theorem div_scale_eq_iff {sc x X i : Nat} (hsc : 0 < sc) :
    x ≤ X ∧ (X - x) / sc = i ↔ x + i * sc ≤ X ∧ X < x + i * sc + sc := by
  rw [Nat.div_eq_iff hsc]
  omega

/-- The pixels of a source pixel's block are those whose offset from the origin, divided by the scale, is that pixel. -/
theorem pix_mem_blockCells {p : Params} {x y sc w h i j X Y : Nat} (hsc : 0 < sc)
    (hr : rectInside p x y (w * sc) (h * sc)) (hi : i < w) (hj : j < h) (hY : Y < p.H) :
    pix p X Y ∈ blockCells p x y sc i j ↔ (x ≤ X ∧ (X - x) / sc = i) ∧ y ≤ Y ∧ (Y - y) / sc = j := by
  obtain ⟨-, hrows⟩ := block_inside hr hi hj
  rw [blockCells, pix_mem_rectCells hrows hY, div_scale_eq_iff hsc, div_scale_eq_iff hsc]

/-- A drawing's blocks lie in its rectangle, wherever that lies. -/
theorem blockCells_subset_rectCells {p : Params} {x y sc w h i j : Nat} (hi : i < w) (hj : j < h) :
    blockCells p x y sc i j ⊆ rectCells p x y (w * sc) (h * sc) := by
  intro k hk
  obtain ⟨i', hi', j', hj', rfl⟩ := mem_rectCells.1 hk
  have hcol : (i + 1) * sc ≤ w * sc := Nat.mul_le_mul_right _ hi
  have hrow : (j + 1) * sc ≤ h * sc := Nat.mul_le_mul_right _ hj
  rw [Nat.succ_mul] at hcol hrow
  exact mem_rectCells.2 ⟨i * sc + i', by omega, j * sc + j', by omega, by rw [Nat.add_assoc, Nat.add_assoc]⟩

/-! The cells a GLYPH paints. -/

theorem glyphCells_subset_rectCells (s : State) (x y sc a : Nat) :
    glyphCells s x y sc a ⊆ rectCells s.params x y (6 * sc) (8 * sc) := by
  intro k hk
  obtain ⟨col, hcol, row, hrow, -, hk⟩ := mem_glyphCells.1 hk
  exact blockCells_subset_rectCells hcol hrow hk

/-- A GLYPH covers the pixels that lie in the block of one of its 6 columns and 8 rows whose bit is set. -/
theorem glyphCovers_iff {s : State} {x y sc a X Y : Nat} (hsc : 0 < sc) :
    glyphCovers s x y sc a X Y = true ↔ (x ≤ X ∧ (X - x) / sc < 6) ∧ (y ≤ Y ∧ (Y - y) / sc < 8) ∧
      glyphBit (s.assetRead (a + (X - x) / sc)) ((Y - y) / sc) = true := by
  rw [glyphCovers, Bool.and_eq_true, decide_eq_true_eq, ← glyphBit, Nat.div_lt_iff_lt_mul hsc, Nat.div_lt_iff_lt_mul hsc]
  exact ⟨fun ⟨hin, hbit⟩ => ⟨by omega, by omega, hbit⟩, fun ⟨hX, hY, hbit⟩ => ⟨by omega, hbit⟩⟩

/-- The pixels whose cells a GLYPH inside the framebuffer paints are those it covers (R121, R125). -/
theorem pix_mem_glyphCells {s : State} {x y sc a X Y : Nat} (hsc : 0 < sc)
    (hr : rectInside s.params x y (6 * sc) (8 * sc)) (hY : Y < s.params.H) :
    pix s.params X Y ∈ glyphCells s x y sc a ↔ glyphCovers s x y sc a X Y = true := by
  rw [mem_glyphCells, glyphCovers_iff hsc]
  constructor
  · rintro ⟨col, hcol, row, hrow, hbit, hk⟩
    obtain ⟨⟨hX, rfl⟩, hY, rfl⟩ := (pix_mem_blockCells hsc hr hcol hrow hY).1 hk
    exact ⟨⟨hX, hcol⟩, ⟨hY, hrow⟩, hbit⟩
  · rintro ⟨⟨hX, hcol⟩, ⟨hY', hrow⟩, hbit⟩
    exact ⟨_, hcol, _, hrow, hbit, (pix_mem_blockCells hsc hr hcol hrow hY).2 ⟨⟨hX, rfl⟩, hY', rfl⟩⟩

/-! The command. -/

/-- A cell after painting into a held framebuffer: the colour at the painted addresses, what was there at every other. -/
theorem setFb_fill_cell {s : State} {m : Memory} (hm : s.fb = some m) (ks : List Nat) (v : Byte) (k : Nat) :
    (s.setFb (some (Memory.fill m ks v))).cell k = if k ∈ ks then some v else s.cell k := by
  rw [setFb_some_cell, Memory.read_fill, State.cell, hm]
  split <;> rfl

/-- A GLYPH whose checks pass paints (R121). -/
theorem execGlyph_paints {s : State} {m : Memory} {x y : Half} {sc : Byte} {a : Half} (h : s.cause = 0)
    (hm : s.fb = some m) (hsc : scaleLegal sc) (ha : assetInside s.params a.toNat 6)
    (hr : rectInside s.params x.toNat y.toNat (6 * sc.toNat) (8 * sc.toNat)) (c : Colour) :
    execGlyph x y c sc a s =
      .next (s.setFb (some (Memory.fill m (glyphCells s x.toNat y.toNat sc.toNat a.toNat) (paint c)))) := by
  rw [execGlyph, accept_executes h, whenHeld_held hm, check_passes hsc, check_passes ha, check_passes hr]

/-- Settles O46: the painted addresses, read as pixels and as part of the rectangle. -/
theorem glyphPaintsBlocks : Obligations.GlyphPaintsBlocks := by
  intro s m x y c sc a h hm hne ha hW hH
  have hsc : scaleLegal sc := scaleLegal_iff.2 hne
  have ⟨hpos, _⟩ := hsc
  have hr : rectInside s.params x.toNat y.toNat (6 * sc.toNat) (8 * sc.toNat) := ⟨hW, hH⟩
  refine ⟨_, execGlyph_paints h hm hsc ha hr c, rfl, rfl, fun X Y _ hY => ?_, fun k hk => ?_⟩
  · exact (setFb_fill_cell hm ..).trans (if_congr (pix_mem_glyphCells hpos hr hY) rfl rfl)
  · rw [setFb_fill_cell hm, if_neg fun hmem => hk (glyphCells_subset_rectCells s _ _ _ _ hmem)]

/-- Settles O47, from the checks GLYPH makes in their order: those before pass, its own fails. -/
theorem glyphFaultOrder : Obligations.GlyphFaultOrder := by
  intro s x y c sc a h
  refine ⟨decode_encode _, fun hf => exec_absent _ hf nofun nofun h, fun m hm hz => ?_, fun m hm hne ha => ?_,
    fun m hm hne ha hr => ?_⟩ <;> rw [exec, execGlyph, accept_executes h, whenHeld_held hm]
  · rw [check_faults fun hsc => scaleLegal_iff.1 hsc hz]
    rfl
  · rw [check_passes (scaleLegal_iff.2 hne), check_faults (Nat.not_le.2 ha)]
    rfl
  · rw [check_passes (scaleLegal_iff.2 hne), check_passes ha, check_faults fun ⟨hW, hH⟩ => by omega]
    rfl

end Sys2Proof.Machine
end

section
/-! SUPPORT. The icon decoder and blitter (spec/42_icon.md R130 to R143): the bits a decoder still owes, in the closed form
of R138, the cells those bits paint, and ICON's checks in their order. -/
namespace Sys2Proof.Machine

/-! The decoder against the closed form. -/

/-- The stream bytes a decoder may still read, in the order it reads them. -/
def Decoder.stream (s : State) (d : Decoder) : List Byte :=
  (List.range d.budget.toNat).map fun k => s.assetRead (d.p + BitVec.ofNat 17 k).toNat

/-- `bits` is all that a decoder whose mask selects bit `j` will return: the literal bits from `j` up (none at `j = 7`, the
mask 0x80), the rest of the run, and the expansion of the bytes still to read (R135, R138). -/
def Decoder.Owes (s : State) (d : Decoder) (bits : List Bool) : Prop :=
  ∃ j ≤ 7, d.mask = BitVec.twoPow 8 j ∧
    bits = (List.range' j (7 - j)).map d.lastByte.getLsbD ++
      (List.replicate d.runLength.toNat d.runBit ++ expand (d.stream s))

/-- Between bytes and outside a run only the bytes still to read are owed. -/
theorem owes_expand_stream {s : State} {d : Decoder} (hm : d.mask = 0x80) (hr : d.runLength = 0) :
    d.Owes s (expand (d.stream s)) :=
  ⟨7, Nat.le_refl 7, hm, by rw [hr]; rfl⟩

/-- The decoder starts owing the expansion of its icon's stream (R134). -/
theorem decoderStart_owes (s : State) (a : Half) (len : Byte) :
    (decoderStart a len).Owes s (expand (iconStream s a.toNat len.toNat)) := by
  have hstream : (decoderStart a len).stream s = iconStream s a.toNat len.toNat := by
    refine List.map_congr_left fun k hk => congrArg s.assetRead ?_
    have hk : k < len.toNat := List.mem_range.1 hk
    simp only [decoderStart]
    bv_omega
  exact hstream ▸ owes_expand_stream rfl rfl

/-- Reading a byte takes it off the stream. -/
theorem stream_read {s : State} {d : Decoder} (hb : d.budget ≠ 0) :
    d.stream s = s.assetRead d.p.toNat :: (readStreamByte s d).stream s := by
  have hbudget : d.budget.toNat = (d.budget - 1).toNat + 1 := by bv_omega
  rw [Decoder.stream, Decoder.stream, readStreamByte_budget, readStreamByte_p, hbudget, List.range_succ_eq_map,
    List.map_cons, List.map_map]
  refine List.cons_eq_cons.2 ⟨by simp, List.map_congr_left fun k _ => congrArg s.assetRead ?_⟩
  bv_omega

/-- A decoder outside a literal byte owes the rest of its run and the expansion of the bytes still to read. -/
theorem Decoder.Owes.eq_of_mask {s : State} {d : Decoder} {bits : List Bool} (h : d.Owes s bits) (hm : d.mask = 0x80) :
    bits = List.replicate d.runLength.toNat d.runBit ++ expand (d.stream s) := by
  obtain ⟨j, hj, hmask, rfl⟩ := h
  have htop : ∀ j ≤ 7, BitVec.twoPow 8 j = 0x80 → j = 7 := by decide
  cases htop j hj (hmask.symm.trans hm)
  rfl

/-- Reading a run marker loads the run (R133). -/
theorem readStreamByte_marker {s : State} {d : Decoder} {b : Byte} (hb : s.assetRead d.p.toNat = b)
    (h : b.getLsbD 7 = true) : readStreamByte s d =
      { d with lastByte := b, p := d.p + 1, budget := d.budget - 1, runLength := b.extractLsb' 0 6,
               runBit := b.getLsbD 6 } := by
  rw [readStreamByte, hb]
  exact if_pos h

/-- Reading a literal byte selects its bit 0 (R133). -/
theorem readStreamByte_literal {s : State} {d : Decoder} {b : Byte} (hb : s.assetRead d.p.toNat = b)
    (h : ¬b.getLsbD 7 = true) : readStreamByte s d =
      { d with lastByte := b, p := d.p + 1, budget := d.budget - 1, mask := 0x01 } := by
  rw [readStreamByte, hb]
  exact if_neg h

/-- Reading a byte between bytes and outside a run leaves what is owed (R133). -/
theorem readStreamByte_owes {s : State} {d : Decoder} (hm : d.mask = 0x80) (hr : d.runLength = 0) (hb : d.budget ≠ 0) :
    (readStreamByte s d).Owes s (expand (d.stream s)) := by
  rw [stream_read hb, expand, List.flatMap_cons, ← expand, expandByte]
  split
  case isTrue hmarker =>
    rw [readStreamByte_marker rfl hmarker]
    exact ⟨7, Nat.le_refl 7, hm, rfl⟩
  case isFalse hliteral =>
    rw [readStreamByte_literal rfl hliteral, List.range_eq_range']
    exact ⟨0, Nat.zero_le 7, rfl, by rw [hr]; rfl⟩

/-- Masking with a one-hot selector tests the selected bit. -/
theorem and_twoPow_bne_zero (v : Byte) {j : Nat} (hj : j < 8) : (v &&& BitVec.twoPow 8 j != 0) = v.getLsbD j := by
  have hone : ∀ j < 8, (BitVec.twoPow 8 j != 0) = true := by decide
  rw [BitVec.and_twoPow]
  cases v.getLsbD j with
  | false => rfl
  | true => exact hone j hj

/-- What `NextBit()` does to what is owed, by the cases of R135: with nothing owed it takes IconTruncated, else it returns
the first bit and leaves the others owed. -/
theorem nextBit_of_owes {s : State} {d : Decoder} {bits : List Bool} (h : d.Owes s bits) :
    (bits = [] ∧ nextBit s d = none) ∨ ∃ b bs d', bits = b :: bs ∧ nextBit s d = some (b, d') ∧ d'.Owes s bs := by
  by_cases hm : d.mask = 0x80
  · by_cases hr : d.runLength = 0
    · by_cases hb : d.budget = 0
      · refine .inl ⟨?_, nextBitIn_truncated hm hr hb s _⟩
        rw [h.eq_of_mask hm, hr, Decoder.stream, hb]
        rfl
      · have hless : (readStreamByte s d).budget.toNat < d.budget.toNat := by
          rw [readStreamByte_budget]
          bv_omega
        have hread : nextBit s d = nextBit s (readStreamByte s d) :=
          (nextBitIn_read hm hr hb s _).trans (nextBitIn_enough s hless)
        rw [h.eq_of_mask hm, hr, hread]
        exact nextBit_of_owes (readStreamByte_owes hm hr hb)
    · have hrun : d.runLength.toNat = (d.runLength - 1).toNat + 1 := by bv_omega
      rw [h.eq_of_mask hm, hrun, List.replicate_succ, List.cons_append]
      exact .inr ⟨_, _, _, rfl, nextBitIn_run hm hr s _, 7, Nat.le_refl 7, hm, rfl⟩
  · obtain ⟨j, hj, hmask, rfl⟩ := h
    have hlt : j < 7 := Nat.lt_of_le_of_ne hj fun htop => hm (hmask.trans (htop ▸ rfl))
    have hbit : (d.lastByte &&& d.mask != 0) = d.lastByte.getLsbD j := by rw [hmask, and_twoPow_bne_zero _ (by omega)]
    have hnext : d.mask <<< 1 = BitVec.twoPow 8 (j + 1) := by
      rw [hmask, BitVec.twoPow, BitVec.twoPow, BitVec.shiftLeft_add]
    rw [show 7 - j = 7 - (j + 1) + 1 by omega, List.range'_succ, List.map_cons, List.cons_append, ← hbit]
    exact .inr ⟨_, _, _, rfl, nextBitIn_literal hm s _, j + 1, hlt, hnext, rfl⟩
termination_by d.budget.toNat

/-- `NextBit()` called `n` times returns the first `n` bits owed, or all of them (R138). -/
theorem bitsFrom_of_owes {s : State} {d : Decoder} {bits : List Bool} (h : d.Owes s bits) (n : Nat) :
    bitsFrom s n d = bits.take n := by
  induction n generalizing d bits with
  | zero => rfl
  | succ n ih =>
    rcases nextBit_of_owes h with ⟨rfl, hnone⟩ | ⟨b, bs, d', rfl, hsome, hrest⟩
    · rw [bitsFrom, hnone, List.take_nil]
    · rw [bitsFrom, hsome, List.take_succ_cons, ← ih hrest]

/-- Settles O48: a decoder at its start owes the expansion of its stream. -/
theorem decoderMatchesExpansion : Obligations.DecoderMatchesExpansion := fun s a len n =>
  bitsFrom_of_owes (decoderStart_owes s a len) n

/-- Settles O49: what is owed is the expansion of the one byte left, at most 63 bits. -/
theorem oneStreamByteDecodes : Obligations.OneStreamByteDecodes := by
  intro s d hm hr hbudget b hb n hn
  have hstream : d.stream s = [b] := by
    rw [stream_read (by rw [hbudget]; decide), hb, Decoder.stream, readStreamByte_budget, hbudget]
    rfl
  have hbits : bitsFrom s n d = (expandByte b).take n := by
    rw [bitsFrom_of_owes (owes_expand_stream hm hr), hstream, expand, List.flatMap_singleton]
  rw [hbits, expandByte]
  refine ⟨fun hmarker => ?_, fun hliteral => ?_⟩
  · have hlen : (b.extractLsb' 0 6).toNat = b.toNat % 64 := BitVec.extractLsb'_toNat ..
    rw [if_pos hmarker, hlen, List.take_replicate, Nat.min_eq_right (by omega)]
  · rw [if_neg (Bool.eq_false_iff.1 hliteral), List.take_of_length_le (by simp; omega)]
    rfl

/-! The cells an ICON paints. -/

/-- The cells painted for the source pixels `ps` when their bits come from `bits`: the blocks of the pixels whose bit is 1
(R139), and none for a pixel whose bit is missing (R141). -/
def blitCells (p : Params) (x y sc : Nat) (ps : List (Nat × Nat)) (bits : List Bool) : List Nat :=
  (ps.zip bits).flatMap fun q => if q.2 then blockCells p x y sc q.1.1 q.1.2 else []

/-- The cells the icon at `a` paints. -/
def iconCells (s : State) (x y sc a : Nat) : List Nat :=
  blitCells s.params x y sc (columnMajor (iconWidth s a) (iconHeight s a)) (iconBits s a)

/-- The blit of pixels whose bits are owed: it paints their cells, and is truncated when the bits are fewer than the
pixels. -/
theorem blitPixels_of_owes {s : State} {d : Decoder} {bits : List Bool} (h : d.Owes s bits) (x y sc : Nat) (v : Byte)
    (ps : List (Nat × Nat)) (m : Memory) : blitPixels s x y sc v ps d m =
      ⟨Memory.fill m (blitCells s.params x y sc ps bits) v, decide (bits.length < ps.length)⟩ := by
  induction ps generalizing d bits m with
  | nil => rfl
  | cons q ps ih =>
    obtain ⟨i, j⟩ := q
    rcases nextBit_of_owes h with ⟨rfl, hnone⟩ | ⟨b, bs, d', rfl, hsome, hrest⟩
    · rw [blitPixels, hnone]
      rfl
    · have hlen : decide (bs.length < ps.length) = decide ((b :: bs).length < ((i, j) :: ps).length) := by simp
      rw [blitPixels, hsome, ← hlen]
      cases b with
      | false => exact ih hrest m
      | true =>
        refine (ih hrest _).trans ?_
        rw [← Memory.fill_append]
        rfl

/-- One column more is appended at the end (R131). -/
theorem columnMajor_succ (w h : Nat) :
    columnMajor (w + 1) h = columnMajor w h ++ (List.range h).map fun j => (w, j) := by
  simp [columnMajor, List.range_succ]

@[simp] theorem length_columnMajor (w h : Nat) : (columnMajor w h).length = w * h := by
  simp [columnMajor, List.length_flatMap]

/-- A position among `w` columns of height `h` lies in one of them. -/
theorem position_lt_iff {w h i j : Nat} (hj : j < h) : i * h + j < w * h ↔ i < w := by
  rw [← Nat.div_lt_iff_lt_mul (Nat.zero_lt_of_lt hj), Nat.add_comm, Nat.add_mul_div_right _ _ (Nat.zero_lt_of_lt hj),
    Nat.div_eq_of_lt hj, Nat.zero_add]

/-- Source pixel `(i, j)` comes at position `i*h + j` (R131). -/
theorem columnMajor_getElem?_eq_some_iff {w h n i j : Nat} :
    (columnMajor w h)[n]? = some (i, j) ↔ i < w ∧ j < h ∧ n = i * h + j := by
  induction w with
  | zero => simp [columnMajor]
  | succ w ih =>
    rw [columnMajor_succ, List.getElem?_append, length_columnMajor]
    by_cases hn : n < w * h
    · rw [if_pos hn, ih]
      exact ⟨fun ⟨hi, hj, e⟩ => ⟨by omega, hj, e⟩, fun ⟨_, hj, e⟩ => ⟨(position_lt_iff hj).1 (e ▸ hn), hj, e⟩⟩
    · simp only [if_neg hn, List.getElem?_map, Option.map_eq_some_iff, Prod.mk.injEq, List.getElem?_eq_some_iff,
        List.length_range, List.getElem_range, exists_prop]
      constructor
      · rintro ⟨_, ⟨hj, rfl⟩, rfl, rfl⟩
        omega
      · rintro ⟨hi, hj, rfl⟩
        have hlast : i = w := Nat.le_antisymm (Nat.le_of_lt_succ hi) (Nat.not_lt.1 (mt (position_lt_iff hj).2 hn))
        rw [hlast, Nat.add_sub_cancel_left]
        exact ⟨j, ⟨hj, rfl⟩, rfl, rfl⟩

/-- A source pixel is paired with its bit (R131, R138). -/
theorem mem_zip_columnMajor {w h i j : Nat} {b : Bool} {bits : List Bool} :
    ((i, j), b) ∈ (columnMajor w h).zip bits ↔ i < w ∧ j < h ∧ bits[i * h + j]? = some b := by
  simp only [List.mem_iff_getElem?, List.getElem?_zip_eq_some, columnMajor_getElem?_eq_some_iff]
  constructor
  · rintro ⟨_, ⟨hi, hj, rfl⟩, hb⟩
    exact ⟨hi, hj, hb⟩
  · rintro ⟨hi, hj, hb⟩
    exact ⟨_, ⟨hi, hj, rfl⟩, hb⟩

/-- The cells an icon paints are those of the blocks of its 1 bits. -/
theorem mem_iconCells {s : State} {x y sc a k : Nat} : k ∈ iconCells s x y sc a ↔
    ∃ i < iconWidth s a, ∃ j < iconHeight s a, (iconBits s a)[i * iconHeight s a + j]? = some true ∧
      k ∈ blockCells s.params x y sc i j := by
  simp only [iconCells, blitCells, List.mem_flatMap, Prod.exists, mem_zip_columnMajor]
  constructor
  · rintro ⟨i, j, b, ⟨hi, hj, hb⟩, hk⟩
    cases b with
    | false => cases hk
    | true => exact ⟨i, hi, j, hj, hb, hk⟩
  · rintro ⟨i, hi, j, hj, hb, hk⟩
    exact ⟨i, j, true, ⟨hi, hj, hb⟩, hk⟩

theorem iconCells_subset_rectCells (s : State) (x y sc a : Nat) :
    iconCells s x y sc a ⊆ rectCells s.params x y (iconWidth s a * sc) (iconHeight s a * sc) := by
  intro k hk
  obtain ⟨i, hi, j, hj, -, hk⟩ := mem_iconCells.1 hk
  exact blockCells_subset_rectCells hi hj hk

/-- An ICON covers the pixels that lie in the block of a source pixel whose bit was decoded and is 1. -/
theorem iconCovers_iff {s : State} {x y sc a X Y : Nat} (hsc : 0 < sc) :
    iconCovers s x y sc a X Y = true ↔ (x ≤ X ∧ (X - x) / sc < iconWidth s a) ∧ (y ≤ Y ∧ (Y - y) / sc < iconHeight s a) ∧
      (iconBits s a)[(X - x) / sc * iconHeight s a + (Y - y) / sc]? = some true := by
  have hdecoded (o : Option Bool) : o.getD false = true ↔ o = some true := by cases o <;> simp
  rw [iconCovers, Bool.and_eq_true, decide_eq_true_eq, List.getD_eq_getElem?_getD, hdecoded, Nat.div_lt_iff_lt_mul hsc,
    Nat.div_lt_iff_lt_mul hsc]
  exact ⟨fun ⟨hin, hbit⟩ => ⟨by omega, by omega, hbit⟩, fun ⟨hX, hY, hbit⟩ => ⟨by omega, hbit⟩⟩

/-- The pixels whose cells an ICON inside the framebuffer paints are those it covers (R131, R139). -/
theorem pix_mem_iconCells {s : State} {x y sc a X Y : Nat} (hsc : 0 < sc)
    (hr : rectInside s.params x y (iconWidth s a * sc) (iconHeight s a * sc)) (hY : Y < s.params.H) :
    pix s.params X Y ∈ iconCells s x y sc a ↔ iconCovers s x y sc a X Y = true := by
  rw [mem_iconCells, iconCovers_iff hsc]
  constructor
  · rintro ⟨i, hi, j, hj, hbit, hk⟩
    obtain ⟨⟨hX, rfl⟩, hY, rfl⟩ := (pix_mem_blockCells hsc hr hi hj hY).1 hk
    exact ⟨⟨hX, hi⟩, ⟨hY, hj⟩, hbit⟩
  · rintro ⟨⟨hX, hi⟩, ⟨hY', hj⟩, hbit⟩
    exact ⟨_, hi, _, hj, hbit, (pix_mem_blockCells hsc hr hi hj hY).2 ⟨⟨hX, rfl⟩, hY', rfl⟩⟩

/-! The command. -/

/-- The state with an icon's cells painted into the held framebuffer `m`. -/
def iconPainted (s : State) (m : Memory) (x y sc a : Nat) (c : Colour) : State :=
  s.setFb (some (Memory.fill m (iconCells s x y sc a) (paint c)))

/-- A check asks only whether its condition holds. -/
theorem check_congr {ok ok' : Prop} [Decidable ok] [Decidable ok'] (h : ok ↔ ok') (f : Cause) (cmd : Cmd)
    (s t : State) : check ok f cmd s t = check ok' f cmd s t :=
  if_congr h rfl rfl

/-- ICON with a framebuffer held: its checks in their order (R140), the last of them that its bits suffice for its pixels,
which is tested on the painted state (R139, R141). -/
theorem execIcon_eq {s : State} {m : Memory} (h : s.cause = 0) (hm : s.fb = some m) {x y : Half} {c : Colour} {sc : Byte}
    {a : Half} {t : State} (ht : t = iconPainted s m x.toNat y.toNat sc.toNat a.toNat c) {cmd : Cmd}
    (hcmd : cmd = encode (.icon x y c sc a)) :
    execIcon x y c sc a s = .next (
      check (scaleLegal sc) .illegalScale cmd s <|
      check (assetInside s.params a.toNat 3) .assetOutOfRange cmd s <|
      check (assetInside s.params a.toNat (3 + iconLength s a.toNat)) .assetOutOfRange cmd s <|
      check (rectInside s.params x.toNat y.toNat (iconWidth s a.toNat * sc.toNat) (iconHeight s a.toNat * sc.toNat))
        .outOfBounds cmd s <|
      check (iconWidth s a.toNat * iconHeight s a.toNat ≤ (iconBits s a.toNat).length) .iconTruncated cmd t t) := by
  subst ht hcmd
  have hblit := blitPixels_of_owes (decoderStart_owes s a (s.assetRead (a.toNat + 2))) x.toNat y.toNat sc.toNat (paint c)
    (columnMajor (s.assetRead a.toNat).toNat (s.assetRead (a.toNat + 1)).toNat) m
  rw [length_columnMajor] at hblit
  simp only [execIcon, accept_executes h, whenHeld_held hm, hblit]
  rw [check_congr (ok := decide _ = false) (decide_eq_false_iff_not.trans Nat.not_lt)]
  rfl

/-- An ICON whose acceptance checks pass paints its cells, and takes IconTruncated if its bits are too few (R139, R141). -/
theorem execIcon_accepted {s : State} {m : Memory} {x y : Half} {sc : Byte} {a : Half}
    (h : iconAccepted s m x.toNat y.toNat sc.toNat a.toNat) {c : Colour} {t : State}
    (ht : t = iconPainted s m x.toNat y.toNat sc.toNat a.toNat c) : execIcon x y c sc a s =
      .next (check (iconWidth s a.toNat * iconHeight s a.toNat ≤ (iconBits s a.toNat).length) .iconTruncated
        (encode (.icon x y c sc a)) t t) := by
  obtain ⟨hcause, hm, hsc, ha, hr⟩ := h
  rw [execIcon_eq hcause hm ht rfl, check_passes (scaleLegal_iff.2 (BitVec.toNat_ne.2 hsc)), check_passes (by omega),
    check_passes (by omega), check_passes hr]

/-- The cells after the painting of an accepted icon: the colour at the pixels it covers, no change outside its rectangle. -/
theorem iconPainted_cell {s : State} {m : Memory} {x y sc a : Nat} (h : iconAccepted s m x y sc a) (c : Colour) :
    (∀ X Y, X < s.params.W → Y < s.params.H → (iconPainted s m x y sc a c).cell (X * s.params.H + Y) =
      if iconCovers s x y sc a X Y then some (c.setWidth 8) else s.cell (X * s.params.H + Y)) ∧
    (∀ k, k ∉ rectCells s.params x y (iconWidth s a * sc) (iconHeight s a * sc) →
      (iconPainted s m x y sc a c).cell k = s.cell k) := by
  obtain ⟨-, hm, hsc, -, hr⟩ := h
  refine ⟨fun X Y _ hY => ?_, fun k hk => ?_⟩
  · exact (setFb_fill_cell hm ..).trans (if_congr (pix_mem_iconCells (Nat.pos_of_ne_zero hsc) hr hY) rfl rfl)
  · rw [iconPainted, setFb_fill_cell hm, if_neg fun hmem => hk (iconCells_subset_rectCells s _ _ _ _ hmem)]

/-- Settles O50: the stream is long enough, so the painted state is the answer. -/
theorem iconPaintsDecodedBits : Obligations.IconPaintsDecodedBits := by
  intro s m x y c sc a h hlong
  exact ⟨iconPainted s m x.toNat y.toNat sc.toNat a.toNat c,
    (execIcon_accepted h rfl).trans (congrArg _ (check_passes hlong ..)), rfl, rfl, iconPainted_cell h c⟩

/-- Settles O51: the stream is too short, so the answer is the painted state with IconTruncated raised. -/
theorem iconTruncationKeepsPainted : Obligations.IconTruncationKeepsPainted := by
  intro s m x y c sc a h hshort
  exact ⟨raise .iconTruncated _ (iconPainted s m x.toNat y.toNat sc.toNat a.toNat c),
    (execIcon_accepted h rfl).trans (congrArg _ (check_faults (Nat.not_le.2 hshort) ..)), rfl, rfl, iconPainted_cell h c⟩

/-- Settles O53: an icon without pixels needs no bit and has no cells to paint. -/
theorem emptyIconPaintsNothing : Obligations.EmptyIconPaintsNothing := by
  intro s m x y c sc a h hempty
  have hpixels : iconWidth s a.toNat * iconHeight s a.toNat = 0 := Nat.mul_eq_zero.2 hempty
  have hcells : iconCells s x.toNat y.toNat sc.toNat a.toNat = [] := by
    have hnone : columnMajor (iconWidth s a.toNat) (iconHeight s a.toNat) = [] := by
      rw [← List.length_eq_zero_iff, length_columnMajor, hpixels]
    rw [iconCells, hnone]
    rfl
  have hsame : iconPainted s m x.toNat y.toNat sc.toNat a.toNat c = s := by
    obtain ⟨-, hm, -⟩ := h
    rw [iconPainted, hcells]
    exact congrArg s.setFb hm.symm
  rw [exec, execIcon_accepted h hsame.symm, hpixels, check_passes (Nat.zero_le _)]

/-- Settles O52, from the checks ICON makes in their order: those before pass, its own fails. -/
theorem iconFaultOrder : Obligations.IconFaultOrder := by
  intro s x y c sc a h
  refine ⟨fun hf => exec_absent _ hf nofun nofun h, fun m hm hz => ?_, fun m hm hne ha => ?_, fun m hm hne ha hlen => ?_,
    fun m hm hne hlen hr => ?_⟩ <;> rw [exec, execIcon_eq h hm rfl rfl]
  · rw [check_faults fun hsc => scaleLegal_iff.1 hsc hz]
    rfl
  · rw [check_passes (scaleLegal_iff.2 hne), check_faults (Nat.not_le.2 ha)]
    rfl
  · rw [check_passes (scaleLegal_iff.2 hne), check_passes ha, check_faults (by omega)]
    rfl
  · rw [check_passes (scaleLegal_iff.2 hne), check_passes (by omega), check_passes (by omega),
      check_faults fun ⟨hW, hH⟩ => by omega]
    rfl

end Sys2Proof.Machine
end

section
/-! SUPPORT. Text layout (R150 to R157): what one character does to the layout, at scale 1 and above, and how the layout of
a string at scale 1 splits at any of its characters. -/
namespace Sys2Proof.Machine

/-- Settles O56: a code kept as it is lies in the printable range, and so does 0x3F. -/
theorem characterMapping : Obligations.CharacterMapping := by
  refine fun ch => ⟨rfl, ?_⟩
  rw [mapChar]
  split <;> omega

section layout
variable (p : Params) (x c cx cy : Nat) (t : List Byte)

/-- The one spelling of the newline code in the lemmas below. -/
theorem newlineCode_eq : 10#8 = newline := rfl

/-! One character. -/

@[simp] theorem layoutFrom_nil (s : Nat) : layoutFrom p x c s cx cy [] = [] := rfl

/-- At scales of 2 and above the character that does not fit ends the layout, newline or not (R154). -/
theorem layoutFrom_cons_scaled {s : Nat} (hs : 2 ≤ s) (ch : Byte) :
    layoutFrom p x c s cx cy (ch :: t) =
      if p.W < cx + 6 * s then [] else charLine p cx cy c s ch :: layoutFrom p x c s (cx + cursorAdvance s) cy t := by
  have hs1 : s ≠ 1 := by omega
  simp [layoutFrom, hs, hs1]

/-- A newline at scale 1 draws nothing and moves the cursor to the start of the next row (R155). -/
@[simp] theorem layoutFrom_newline :
    layoutFrom p x c 1 cx cy (newline :: t) = layoutFrom p x c 1 x (cy + 10) t :=
  if_pos ⟨rfl, rfl⟩

/-- Any other character at scale 1 is drawn at the cursor, whatever the width, and moves it six pixels (R153, R155). -/
@[simp] theorem layoutFrom_cons_unscaled {ch : Byte} (hch : ch ≠ newline) :
    layoutFrom p x c 1 cx cy (ch :: t) = charLine p cx cy c 1 ch :: layoutFrom p x c 1 (cx + 6) cy t := by
  simp [layoutFrom, hch, cursorAdvance]

/-! The cursor at scale 1. -/

theorem cursorColumn_append_newline : cursorColumn x cx (t ++ [newline]) = x := by simp [cursorColumn, newlineCode_eq]

theorem cursorColumn_append_char {ch : Byte} (hch : ch ≠ newline) :
    cursorColumn x cx (t ++ [ch]) = cursorColumn x cx t + 6 := by
  by_cases hnl : newline ∈ t <;> simp [cursorColumn, newlineCode_eq, hch, hch.symm, hnl, Nat.mul_add, Nat.add_assoc]

theorem cursorRow_append_newline : cursorRow cy (t ++ [newline]) = cursorRow cy t + 10 := by
  simp [cursorRow, newlineCode_eq, Nat.mul_add, Nat.add_assoc]

theorem cursorRow_append_char {ch : Byte} (hch : ch ≠ newline) : cursorRow cy (t ++ [ch]) = cursorRow cy t := by
  simp [cursorRow, newlineCode_eq, hch]

/-! A string at scale 1. -/

/-- The layout at scale 1 splits anywhere: the rest is laid out from the cursor the characters before it leave. -/
theorem layoutFrom_append (before : List Byte) :
    layoutFrom p x c 1 cx cy (before ++ t) =
      layoutFrom p x c 1 cx cy before ++
        layoutFrom p x c 1 (cursorColumn x cx before) (cursorRow cy before) t := by
  induction before using List.reverseRecOn generalizing t with
  | nil => simp [cursorColumn, cursorRow]
  | append_singleton before ch ih =>
    rw [List.append_assoc, ih, ih [ch], List.append_assoc]
    by_cases hch : ch = newline
    · subst hch
      simp [cursorColumn_append_newline, cursorRow_append_newline]
    · simp [hch, cursorColumn_append_char, cursorRow_append_char]

/-- At scale 1 every character but the newlines has one line (R155). -/
theorem length_layoutFrom_unscaled : (layoutFrom p x c 1 cx cy t).length = (drawn t).length := by
  induction t generalizing cx cy with
  | nil => rfl
  | cons ch t ih =>
    by_cases hch : ch = newline
    · subst hch
      simpa [drawn, newlineCode_eq] using ih x (cy + 10)
    · simpa [drawn, newlineCode_eq, hch] using ih (cx + 6) cy

end layout

/-- Settles O57, by induction on the string: a character is drawn only where it fits. -/
theorem scaledTextFitsWidth : Obligations.ScaledTextFitsWidth := by
  intro p x y c s t hs
  suffices h : ∀ cx, ∀ l ∈ layoutFrom p x c s cx y t, ∃ X Y a, l = .glyph X Y c s a ∧ X + 6 * s ≤ p.W from h x
  induction t with
  | nil => simp
  | cons ch t ih =>
    intro cx
    rw [layoutFrom_cons_scaled _ _ _ _ _ _ hs]
    split
    · exact nofun
    next hfits => exact List.forall_mem_cons.2 ⟨⟨cx, y, _, rfl, Nat.not_lt.1 hfits⟩, ih _⟩

/-- Settles O58: the character's line heads the layout of the rest, after one line for each drawn character before it. -/
theorem unscaledTextIsNotClipped : Obligations.UnscaledTextIsNotClipped := by
  intro p x c cx cy t
  refine ⟨length_layoutFrom_unscaled .., fun before after ch ht hch => ?_⟩
  rw [ht, layoutFrom_append, layoutFrom_cons_unscaled _ _ _ _ _ _ hch, ← length_layoutFrom_unscaled p x c cx cy before]
  simp

end Sys2Proof.Machine
end

section
/-! SUPPORT. The framebuffer and its commands (spec/44_framebuffer.md R160 to R168): which bytes a command can leave in a
cell, and FBINIT, FBFREE, FILL and FBRD. -/
namespace Sys2Proof.Machine

/-! The cells of a held framebuffer. -/

theorem cell_eq_some_iff {s : State} {k : Nat} {v : Byte} :
    s.cell k = some v ↔ ∃ m, s.fb = some m ∧ Memory.read m k = v := Option.map_eq_some_iff

theorem cell_of_held {s : State} {m : Memory} (hm : s.fb = some m) (k : Nat) : s.cell k = some (Memory.read m k) :=
  cell_eq_some_iff.2 ⟨m, hm, rfl⟩

theorem drawAlloc_cell (s : State) (k : Nat) : (drawAlloc s).2.cell k = s.cell k := by
  rw [State.cell, drawAlloc_fb, State.cell]

/-- A cell after painting in colour `c` holds what it held or the byte of `c` (R160). -/
theorem PaintsOnly.cell_cases {c : Colour} {s : State} {m m' : Memory} (hp : PaintsOnly c m m') (hm : s.fb = some m)
    {k : Nat} {v : Byte} (hv : (s.setFb (some m')).cell k = some v) : s.cell k = some v ∨ v = paint c := by
  rw [cell_of_held hm]
  cases hv
  exact (hp k).imp_left fun hold => congrArg some hold.symm

/-- What a command leaves in a cell: the old byte, the zero of FBINIT or the command's colour (R160, R161). -/
theorem Effect.cell_cases {i : Instr} {s t : State} (e : Effect s i t) {k : Nat} {v : Byte} (hv : t.cell k = some v) :
    s.cell k = some v ∨ (i = .fbinit ∧ v = 0) ∨ ∃ c, drawColour i = some c ∧ v = paint c := by
  cases e with
  | allocated => exact .inr (.inl ⟨rfl, (Option.some.inj hv).symm⟩)
  | allocationFailed => exact .inl ((drawAlloc_cell s k).symm.trans hv)
  | released => cases hv
  | painted _ hm hc hp | truncated _ hm hc hp => exact (hp.cell_cases hm hv).imp_right fun hcol => .inr ⟨_, hc, hcol⟩
  | _ => exact .inl hv

/-- Settles O18: each of the three bytes a cell can hold is below 16, the old one by assumption. -/
theorem writesStoreTheColour : Obligations.WritesStoreTheColour := by
  intro i s t e k v hv
  have hcases := (effect_of_exec e).cell_cases hv
  refine ⟨hcases, fun hold => ?_⟩
  obtain hsame | ⟨-, rfl⟩ | ⟨c, -, rfl⟩ := hcases
  · exact hold v hsame
  · decide
  · exact paint_lt c

/-- Settles O22: RESULT is the zero-extension of a cell, and the cell is a colour index. -/
theorem readbackBelowSixteen : Obligations.ReadbackBelowSixteen := by
  intro s t x y hs e _ ht
  obtain ⟨v, hv, hres⟩ := (effect_of_exec e).fbrd_result ht
  obtain ⟨m, hm, rfl⟩ := cell_eq_some_iff.1 hv
  rw [hres, BitVec.toNat_setWidth_of_le (by decide)]
  exact hs.read_lt hm _

/-! FILL. -/

/-- The pixels of a bar that fits are those of its rows, in every column (R163). -/
theorem pix_mem_barCells {p : Params} {y h X Y : Nat} (hr : rowsInside p y h) (hX : X < p.W) (hY : Y < p.H) :
    pix p X Y ∈ barCells p y h ↔ y ≤ Y ∧ Y < y + h := by
  rw [barCells, pix_mem_rectCells hr hY, Nat.zero_add]
  exact and_iff_right ⟨Nat.zero_le X, hX⟩

/-- Settles O42: the painted addresses, read as pixels. -/
theorem fillPaintsRows : Obligations.FillPaintsRows := by
  intro s y h c h0
  refine ⟨fun m hm hr => ?_, fun m hm hout => ?_, fun hf => exec_absent _ hf nofun nofun h0⟩
  · obtain ⟨-, he⟩ := (execFill_held h0 hm y h c).resolve_right fun ⟨hn, _⟩ => hn hr
    refine ⟨_, he, rfl, rfl, fun X Y hX hY => ?_, fun k hk => ?_⟩
    · exact (setFb_fill_cell hm ..).trans (if_congr (pix_mem_barCells hr hX hY) rfl rfl)
    · rw [setFb_fill_cell hm, if_neg hk]
  · exact ((execFill_held h0 hm y h c).resolve_left fun ⟨hr, _⟩ => Nat.not_le.2 hout hr).2

/-! FBINIT. -/

/-- FBINIT with none held goes by the answer it draws (R161). -/
theorem execFbinit_draws {s s' : State} {ok : Bool} (h : s.cause = 0) (hf : s.fb = none) (hd : drawAlloc s = (ok, s')) :
    execFbinit s =
      .next (check (ok = true) .allocationFailure (encode .fbinit) s' (s'.setFb (some zeroed))) := by
  rw [execFbinit, accept_executes h, check_passes hf, hd]

theorem setFb_zeroed_cell (s : State) (k : Nat) : (s.setFb (some zeroed)).cell k = some 0 := rfl

/-- Settles O37. -/
theorem fbinitZeroesFramebuffer : Obligations.FbinitZeroesFramebuffer := fun _ _ h hf ha =>
  ⟨_, (execFbinit_draws h hf (drawAlloc_listed ha)).trans (congrArg _ (check_passes rfl ..)), setFb_zeroed_cell _, rfl, rfl⟩

/-- Settles O39, for either free value. -/
theorem fbinitByFreeAnswer : Obligations.FbinitByFreeAnswer := by
  intro s h hf ha
  have he := execFbinit_draws h hf (drawAlloc_free ha)
  by_cases hok : Config.allocOk s.draws = true
  · rw [check_passes hok] at he
    exact ⟨_, he, by rw [if_pos hok]; exact ⟨setFb_zeroed_cell _, rfl⟩⟩
  · rw [check_faults hok] at he
    exact ⟨_, he, by rw [if_neg hok]; rfl⟩

/-! FBFREE. -/

/-- Settles O40. -/
theorem fbfreeReleases : Obligations.FbfreeReleases := fun _ h =>
  ⟨fun _ hm => ⟨_, execFbfree_held h hm, rfl, rfl⟩, fun hf => exec_absent .fbfree hf nofun nofun h⟩

/-- Settles O41: what FBFREE answers does not name the contents. -/
theorem releaseForgetsContents : Obligations.ReleaseForgetsContents := fun s m m' h =>
  (execFbfree_held (s := { s with fb := some m }) h rfl).trans
    (execFbfree_held (s := { s with fb := some m' }) h rfl).symm

/-! FBRD. -/

/-- Settles O43, from the two outcomes of an FBRD with a framebuffer held. -/
theorem fbrdReadsCell : Obligations.FbrdReadsCell := by
  intro s x y h
  refine ⟨fun m hm hX hY => ?_, fun m hm hout => ?_, fun hf => exec_absent _ hf nofun nofun h⟩
  · exact ((execFbrd_held h hm x y).resolve_right fun ⟨hn, _⟩ => hn ⟨hX, hY⟩).2
  · exact ((execFbrd_held h hm x y).resolve_left fun ⟨⟨hX, hY⟩, _⟩ => by omega).2

end Sys2Proof.Machine
end

section
/-! SUPPORT. The lines of a SCANOUT byte by byte (spec/45_scanout.md R180 to R185). -/
namespace Sys2Proof.Machine

/-- The pixel of a cell byte is the palette entry of its low nibble (R181). -/
theorem pixelOf_eq_palette (p : Params) (b : Byte) :
    pixelOf p b = p.palette[b.toNat % 16]'(Nat.mod_lt _ (by decide)) := by
  have hidx : ((b &&& 0x0F).setWidth 4).toNat = b.toNat % 16 := by
    rw [BitVec.toNat_setWidth, BitVec.toNat_and]
    exact (congrArg (· % 16) (Nat.and_two_pow_sub_one_eq_mod b.toNat 4)).trans (Nat.mod_mod ..)
  simp only [pixelOf, color, hidx]

/-- Pixels laid out high byte first put pixel `y` at bytes `2*y` and `2*y + 1` (R57). -/
theorem flatMap_bigEndian_getElem? {vs : List Rgb565} {y : Nat} {v : Rgb565} (h : vs[y]? = some v) :
    (vs.flatMap bigEndian)[2 * y]? = some (v.extractLsb' 8 8) ∧
      (vs.flatMap bigEndian)[2 * y + 1]? = some (v.extractLsb' 0 8) := by
  induction vs generalizing y with
  | nil => cases h
  | cons u vs ih =>
    cases y with
    | zero => cases h; exact ⟨rfl, rfl⟩
    | succ y => exact ih h

/-- Bytes `2*y` and `2*y + 1` of column `x` are its pixel `y`, high byte first (R182). -/
theorem lineBytes_getElem? (p : Params) (m : Memory) (x : Nat) {y : Nat} (hy : y < p.H) :
    (lineBytes p m x)[2 * y]? = some ((pixelOf p (Memory.read m (pix p x y))).extractLsb' 8 8) ∧
      (lineBytes p m x)[2 * y + 1]? = some ((pixelOf p (Memory.read m (pix p x y))).extractLsb' 0 8) := by
  rw [lineBytes, ← List.flatMap_map]
  exact flatMap_bigEndian_getElem? (by simp [hy])

theorem length_scanLines (p : Params) (m : Memory) : (scanLines p m).length = p.W := by simp [scanLines]

/-- Event `i` of a SCANOUT is line `i` (R185). -/
theorem scanLines_getElem? (p : Params) (m : Memory) {i : Nat} (hi : i < p.W) :
    (scanLines p m)[i]? = some ⟨i, lineBytes p m i⟩ := by simp [scanLines, hi]

/-- Settles O54: with a framebuffer held the events are its scan lines, whose bytes are the columns' pixels. -/
theorem scanoutEmitsLines : Obligations.ScanoutEmitsLines := by
  intro s h
  refine ⟨fun m hm => ⟨_, scanLines s.params m, execScanout_held h hm, rfl, rfl, length_scanLines .., fun i hi => ?_⟩,
    fun hf => exec_absent .scanout hf nofun nofun h⟩
  refine ⟨_, scanLines_getElem? s.params m hi, rfl, lineBytes_length .., fun y hy => ?_⟩
  exact ⟨_, pixelOf_eq_palette .., lineBytes_getElem? s.params m i hy⟩

end Sys2Proof.Machine
end

section
/-! SUPPORT. Faults (spec/60_exceptions.md R190 to R207): which check takes which cause, what a faulting command leaves
unchanged, and what a faulted machine discards. -/
namespace Sys2Proof.Machine

/-! Every command completes, and fault entry. -/

/-- Settles O9. -/
theorem commandsAlwaysComplete : Obligations.CommandsAlwaysComplete := fun i s =>
  have ⟨t, e, _⟩ := exec_effect i s
  ⟨t, e⟩

/-- Settles O29. -/
theorem faultEntry : Obligations.FaultEntry := ⟨fun _ _ _ => rfl, rfl, rfl, rfl, rfl, rfl, rfl, rfl, rfl⟩

/-! Words that are illegal, and words that are discarded. -/

theorem decode_error_of_unspelled {w : Cmd} (h : wellFormedWord w = false) : ∃ r, decode w = .error r := by
  cases hd : decode w with
  | error r => exact ⟨r, rfl⟩
  | ok i => cases h.symm.trans ((wellFormedWord_iff w).2 ⟨i, hd⟩)

/-- Settles O7: a word that spells no row does not decode. -/
theorem unspelledWordIsIllegal : Obligations.UnspelledWordIsIllegal := by
  intro w s hw h
  obtain ⟨r, hd⟩ := decode_error_of_unspelled hw
  exact ⟨issue_illegal_faults hd h, fun rest hs =>
    (step_performs hs).trans (issue_illegal_faults hd (s := countWord (advance s rest)) h)⟩

/-- Settles O11. -/
theorem faultedMachineDiscards : Obligations.FaultedMachineDiscards := fun s w rest hs h =>
  (step_performs hs).trans (issue_discards (s := countWord (advance s rest)) h w)

/-! Which check takes which cause. -/

/-- A check with another fault leaves the code of `f` only where what follows it does. -/
theorem check_cause_ne {ok : Prop} [Decidable ok] {f g : Cause} (hg : g.code ≠ f.code) {t : State}
    (ht : t.cause ≠ f.code) {cmd : Cmd} {s : State} : (check ok g cmd s t).cause ≠ f.code := by
  rcases check_cases ok g cmd s t with ⟨-, e⟩ | ⟨-, e⟩ <;> rw [e]
  · exact ht
  · exact hg

/-- The same for the acceptance of a command that needs a framebuffer. -/
theorem accept_whenHeld_cause_ne {f : Cause} (hf : Cause.fbAbsent.code ≠ f.code) {s : State} (h : s.cause = 0)
    {cmd : Cmd} {go : Memory → State} (hgo : ∀ m, (go m).cause ≠ f.code) :
    (accept s (whenHeld cmd s go)).cause ≠ f.code := by
  rw [accept_executes h]
  rcases whenHeld_cases cmd s go with ⟨-, e⟩ | ⟨m, -, e⟩ <;> rw [e]
  · exact hf
  · exact hgo m

/-- Two checks with the same fault are one check of both conditions. -/
theorem check_check {ok ok' : Prop} [Decidable ok] [Decidable ok'] (f : Cause) (cmd : Cmd) (s t : State) :
    check ok f cmd s (check ok' f cmd s t) = check (ok ∧ ok') f cmd s t :=
  (ite_and ..).symm

/-- `t` has taken fault `f` of command word `cmd` exactly when `P`, and then differs from `s` in CAUSE and FCMD only. -/
abbrev FaultsExactly (f : Cause) (cmd : Cmd) (s : State) (P : Prop) (t : State) : Prop :=
  (t.cause = f.code ↔ P) ∧ (t.cause = f.code → t = raise f cmd s)

/-- A check takes its fault exactly when its condition fails, if nothing after it takes the same one. -/
theorem check_faultsExactly {ok P : Prop} [Decidable ok] (hP : ¬ok ↔ P) {f : Cause} {t : State} (ht : t.cause ≠ f.code)
    {cmd : Cmd} {s : State} : FaultsExactly f cmd s P (check ok f cmd s t) := by
  rcases check_cases ok f cmd s t with ⟨hok, e⟩ | ⟨hok, e⟩ <;> rw [e]
  · exact ⟨iff_of_false ht fun hp => hP.2 hp hok, fun hc => absurd hc ht⟩
  · exact ⟨iff_of_true rfl (hP.1 hok), fun _ => rfl⟩

/-- A machine whose CAUSE is 0 has taken no fault. -/
theorem Cause.ne_code_of_zero {s : State} (h : s.cause = 0) (f : Cause) : s.cause ≠ f.code :=
  fun hc => f.code_ne_zero (hc.symm.trans h)

section held
variable {s : State} {m : Memory} (h : s.cause = 0) (hm : s.fb = some m)
include h hm

/-- FILL with a framebuffer held: its one check (R163). -/
theorem exec_fill_eq (y h' : Half) (c : Colour) : exec (.fill y h' c) s = .next (
    check (rowsInside s.params y.toNat h'.toNat) .outOfBounds (encode (.fill y h' c)) s <|
      s.setFb (some (Memory.fill m (barCells s.params y.toNat h'.toNat) (paint c)))) := by
  rw [exec, execFill, accept_executes h, whenHeld_held hm]

/-- FBRD with a framebuffer held: its one check (R168). -/
theorem exec_fbrd_eq (x y : Half) : exec (.fbrd x y) s = .next (
    check (pixelInside s.params x.toNat y.toNat) .outOfBounds (encode (.fbrd x y)) s <|
      s.setResult ((Memory.read m (pix s.params x.toNat y.toNat)).setWidth 16)) := by
  rw [exec, execFbrd, accept_executes h, whenHeld_held hm]

/-- GLYPH with a framebuffer held: its checks in their order (R122). -/
theorem exec_glyph_eq (x y : Half) (c : Colour) (sc : Byte) (a : Half) : exec (.glyph x y c sc a) s = .next (
    check (scaleLegal sc) .illegalScale (encode (.glyph x y c sc a)) s <|
    check (assetInside s.params a.toNat 6) .assetOutOfRange (encode (.glyph x y c sc a)) s <|
    check (rectInside s.params x.toNat y.toNat (6 * sc.toNat) (8 * sc.toNat)) .outOfBounds (encode (.glyph x y c sc a)) s <|
      s.setFb (some (Memory.fill m (glyphCells s x.toNat y.toNat sc.toNat a.toNat) (paint c)))) := by
  rw [exec, execGlyph, accept_executes h, whenHeld_held hm]

end held

/-! FBINIT and PALQ. -/

theorem execFbinit_cause_ne {s t : State} {f : Cause} (hheld : Cause.fbHeld.code ≠ f.code)
    (halloc : Cause.allocationFailure.code ≠ f.code) (h : s.cause = 0) (e : exec .fbinit s = .next t) :
    t.cause ≠ f.code := by
  rcases execFbinit_cases h with ⟨-, he⟩ | ⟨-, -, he⟩ | ⟨-, -, he⟩ <;> cases e.symm.trans he
  · exact hheld
  · exact Cause.ne_code_of_zero (s := (drawAlloc s).2) ((drawAlloc_cause s).trans h) f
  · exact halloc

theorem execPalq_cause_ne {s t : State} {c : Colour} (h : s.cause = 0) (e : exec (.palq c) s = .next t) (f : Cause) :
    t.cause ≠ f.code := by
  cases e.symm.trans (execPalq_eq h c)
  exact Cause.ne_code_of_zero h f

/-- Settles O30: PALQ makes no check, and those of FBINIT have other faults. -/
theorem fbAbsentFaults : Obligations.FbAbsentFaults := by
  intro s h
  refine ⟨fun hf => ?_, fun t e => execFbinit_cause_ne (f := .fbAbsent) (by decide) (by decide) h e,
    fun c t e => execPalq_cause_ne h e .fbAbsent⟩
  have absent (i : Instr) (hi : i ≠ .fbinit) (hp : ∀ c, i ≠ .palq c) :
      exec i s = .next (raise .fbAbsent (encode i) s) := exec_absent i hf hi hp h
  exact ⟨absent _ nofun nofun, absent _ nofun nofun, fun _ _ _ => absent _ nofun nofun,
    fun _ _ _ _ _ => absent _ nofun nofun, fun _ _ _ _ _ => absent _ nofun nofun, fun _ _ => absent _ nofun nofun⟩

/-- Settles O31: the answer drawn is the listed 0, and CAUSE is then not 0. -/
theorem allocationFailureAborts : Obligations.AllocationFailureAborts := fun _ _ h hf ha =>
  ⟨_, (execFbinit_draws h hf (drawAlloc_listed ha)).trans (congrArg _ (check_faults nofun ..)), rfl,
    congrArg Option.isSome hf, exec_discards (Cause.code_ne_zero .allocationFailure)⟩

/-- Settles O38. -/
theorem fbinitWhileHeld : Obligations.FbinitWhileHeld := by
  intro s m h hm
  have hheld : s.fb ≠ none := hm ▸ nofun
  rcases execFbinit_cases h with ⟨-, he⟩ | ⟨hf, -⟩ | ⟨hf, -⟩
  · exact he
  · exact absurd hf hheld
  · exact absurd hf hheld

/-! The checks of FILL, GLYPH, ICON and FBRD with a framebuffer held. -/

section checks
variable {s t : State} {m : Memory} (h : s.cause = 0) (hm : s.fb = some m) (x y : Half) (c : Colour) (sc : Byte) (a : Half)
include h hm

theorem glyph_illegalScale (e : exec (.glyph x y c sc a) s = .next t) :
    FaultsExactly .illegalScale (encode (.glyph x y c sc a)) s (sc = 0) t := by
  cases e.symm.trans (exec_glyph_eq h hm x y c sc a)
  refine check_faultsExactly (scaleLegal_iff.not.trans not_not) ?_
  refine check_cause_ne (by decide) (check_cause_ne (by decide) ?_)
  exact Cause.ne_code_of_zero h _

theorem icon_illegalScale (e : exec (.icon x y c sc a) s = .next t) :
    FaultsExactly .illegalScale (encode (.icon x y c sc a)) s (sc = 0) t := by
  cases e.symm.trans (execIcon_eq h hm rfl rfl)
  refine check_faultsExactly (scaleLegal_iff.not.trans not_not) ?_
  refine check_cause_ne (by decide) (check_cause_ne (by decide) ?_)
  refine check_cause_ne (by decide) (check_cause_ne (by decide) ?_)
  exact Cause.ne_code_of_zero h _

theorem glyph_assetOutOfRange (hsc : sc ≠ 0) (e : exec (.glyph x y c sc a) s = .next t) :
    FaultsExactly .assetOutOfRange (encode (.glyph x y c sc a)) s (s.params.assetSize < a.toNat + 6) t := by
  cases e.symm.trans (exec_glyph_eq h hm x y c sc a)
  rw [check_passes (scaleLegal_iff.2 hsc)]
  refine check_faultsExactly Nat.not_le (check_cause_ne (by decide) ?_)
  exact Cause.ne_code_of_zero h _

theorem icon_assetOutOfRange (hsc : sc ≠ 0) (e : exec (.icon x y c sc a) s = .next t) :
    FaultsExactly .assetOutOfRange (encode (.icon x y c sc a)) s
      (s.params.assetSize < a.toNat + 3 ∨ s.params.assetSize < a.toNat + 3 + iconLength s a.toNat) t := by
  cases e.symm.trans (execIcon_eq h hm rfl rfl)
  rw [check_passes (scaleLegal_iff.2 hsc), check_check]
  refine check_faultsExactly (by omega) ?_
  refine check_cause_ne (by decide) (check_cause_ne (by decide) ?_)
  exact Cause.ne_code_of_zero h _

theorem fill_outOfBounds (h' : Half) (e : exec (.fill y h' c) s = .next t) :
    FaultsExactly .outOfBounds (encode (.fill y h' c)) s (s.params.H < y.toNat + h'.toNat) t := by
  cases e.symm.trans (exec_fill_eq h hm y h' c)
  refine check_faultsExactly Nat.not_le ?_
  exact Cause.ne_code_of_zero h _

theorem fbrd_outOfBounds (e : exec (.fbrd x y) s = .next t) :
    FaultsExactly .outOfBounds (encode (.fbrd x y)) s (s.params.W ≤ x.toNat ∨ s.params.H ≤ y.toNat) t := by
  cases e.symm.trans (exec_fbrd_eq h hm x y)
  refine check_faultsExactly (by omega) ?_
  exact Cause.ne_code_of_zero h _

theorem glyph_outOfBounds (hsc : sc ≠ 0) (ha : a.toNat + 6 ≤ s.params.assetSize)
    (e : exec (.glyph x y c sc a) s = .next t) : FaultsExactly .outOfBounds (encode (.glyph x y c sc a)) s
      (s.params.W < x.toNat + 6 * sc.toNat ∨ s.params.H < y.toNat + 8 * sc.toNat) t := by
  cases e.symm.trans (exec_glyph_eq h hm x y c sc a)
  rw [check_passes (scaleLegal_iff.2 hsc), check_passes ha]
  refine check_faultsExactly (by omega) ?_
  exact Cause.ne_code_of_zero h _

theorem icon_outOfBounds (hsc : sc ≠ 0) (ha : a.toNat + 3 + iconLength s a.toNat ≤ s.params.assetSize)
    (e : exec (.icon x y c sc a) s = .next t) : FaultsExactly .outOfBounds (encode (.icon x y c sc a)) s
      (s.params.W < x.toNat + iconWidth s a.toNat * sc.toNat ∨
        s.params.H < y.toNat + iconHeight s a.toNat * sc.toNat) t := by
  cases e.symm.trans (execIcon_eq h hm rfl rfl)
  rw [check_passes (scaleLegal_iff.2 hsc), check_passes (by omega), check_passes (by omega)]
  refine check_faultsExactly (by omega) (check_cause_ne (by decide) ?_)
  exact Cause.ne_code_of_zero h _

end checks

/-- Settles O32: the scale is tested before every other check of a machine that holds a framebuffer. -/
theorem illegalScaleExactlyZero : Obligations.IllegalScaleExactlyZero := by
  rintro s t m x y c sc a h hm i (rfl | rfl) e
  · obtain ⟨hiff, hframe⟩ := glyph_illegalScale h hm x y c sc a e
    exact ⟨hiff, fun hz => hframe (hiff.2 hz)⟩
  · obtain ⟨hiff, hframe⟩ := icon_illegalScale h hm x y c sc a e
    exact ⟨hiff, fun hz => hframe (hiff.2 hz)⟩

/-- Settles O33. -/
theorem assetExtentChecked : Obligations.AssetExtentChecked := fun _ _ _ x y c sc a h hm hsc =>
  ⟨glyph_assetOutOfRange h hm x y c sc a hsc, icon_assetOutOfRange h hm x y c sc a hsc⟩

/-- Settles O35. -/
theorem boundsChecked : Obligations.BoundsChecked := fun _ _ _ h hm =>
  ⟨fun y h' c => fill_outOfBounds h hm y c h', fun x y => fbrd_outOfBounds h hm x y,
    fun x y c sc a => glyph_outOfBounds h hm x y c sc a, fun x y c sc a => icon_outOfBounds h hm x y c sc a⟩

/-! Precision. -/

/-- Only ICON takes IconTruncated (R190, R201). -/
theorem exec_cause_ne_iconTruncated {i : Instr} {s t : State} (hi : ∀ x y c sc a, i ≠ .icon x y c sc a) (h : s.cause = 0)
    (e : exec i s = .next t) : t.cause ≠ Cause.iconTruncated.code := by
  have kept : s.cause ≠ Cause.iconTruncated.code := Cause.ne_code_of_zero h _
  cases i with
  | icon x y c sc a => exact absurd rfl (hi x y c sc a)
  | fbinit => exact execFbinit_cause_ne (by decide) (by decide) h e
  | palq c => exact execPalq_cause_ne h e _
  | fbfree | scanout =>
    cases e
    exact accept_whenHeld_cause_ne (by decide) h fun _ => kept
  | fill | fbrd =>
    cases e
    refine accept_whenHeld_cause_ne (by decide) h fun _ => check_cause_ne (by decide) ?_
    exact kept
  | glyph =>
    cases e
    refine accept_whenHeld_cause_ne (by decide) h fun _ => check_cause_ne (by decide) ?_
    refine check_cause_ne (by decide) (check_cause_ne (by decide) ?_)
    exact kept

/-- A fault taken on a machine without one writes the command's word to FCMD and keeps all that R203 names; the contents of
the framebuffer too, unless it is IconTruncated. -/
theorem Effect.precise {i : Instr} {s t : State} (e : Effect s i t) (h : s.cause = 0) (ht : t.cause ≠ 0) :
    t.fcmd = encode i ∧ t.result = s.result ∧ t.trace = s.trace ∧ t.lb = s.lb ∧ t.fbv = s.fbv ∧
      (t.cause ≠ 7 → t.fb = s.fb) := by
  cases e with
  | faulted => exact ⟨rfl, rfl, rfl, rfl, rfl, fun _ => rfl⟩
  | allocationFailed =>
    exact ⟨rfl, drawAlloc_result s, drawAlloc_trace s, drawAlloc_lb s, congrArg Option.isSome (drawAlloc_fb s),
      fun _ => drawAlloc_fb s⟩
  | truncated _ hm => exact ⟨rfl, rfl, rfl, rfl, (congrArg Option.isSome hm).symm, fun h7 => absurd rfl h7⟩
  | allocated => exact absurd ((drawAlloc_cause s).trans h) ht
  | _ => exact absurd h ht

/-- Settles O36, from what a command can do, and the checks of the commands that are no ICON. -/
theorem faultsArePrecise : Obligations.FaultsArePrecise := by
  intro i s t h e ht
  obtain ⟨hfcmd, hresult, htrace, hlb, hfbv, hfb⟩ := (effect_of_exec e).precise h ht
  refine ⟨hfcmd, hresult, htrace, hlb, hfbv, hfb, fun h7 => ?_⟩
  by_contra hicon
  exact exec_cause_ne_iconTruncated (fun x y c sc a hi => hicon ⟨x, y, c, sc, a, hi⟩) h e h7

end Sys2Proof.Machine
end

section
/-! SUPPORT. The line buffer after a SCANOUT, a reset that abandons a command, and a host with nothing to issue
(spec/45_scanout.md R182, spec/70_reset_and_hazards.md R221 and section 3). -/
namespace Sys2Proof.Machine

/-! The line buffer. -/

/-- The last event of a SCANOUT is the line of column `W - 1`. -/
theorem scanLines_getLast? {p : Params} (hW : 1 ≤ p.W) (m : Memory) :
    (scanLines p m).getLast? = some ⟨p.W - 1, lineBytes p m (p.W - 1)⟩ := by
  rw [List.getLast?_eq_getElem?, length_scanLines, scanLines_getElem? p m (by omega)]

/-- After some lines the line buffer reads as the last of them, byte by byte. -/
theorem read_bufferAfter {lines : List LineEvent} {e : LineEvent} (he : lines.getLast? = some e) (lb : Memory) {k : Nat}
    (hk : k < e.bytes.length) : e.bytes[k]? = some (Memory.read (bufferAfter lines lb) k) := by
  simp only [bufferAfter, he, Memory.read_tabulate, if_pos hk]
  simp [hk]

/-- Settles O55: the buffer is the tabulation of the last scan line. -/
theorem lineBufferHoldsLastLine : Obligations.LineBufferHoldsLastLine := fun s m h hm hW =>
  ⟨_, execScanout_held h hm, fun _ hk =>
    read_bufferAfter (scanLines_getLast? hW m) s.lb (hk.trans_eq (lineBytes_length ..).symm)⟩

/-! Reset during a command. -/

section abandoned
variable {w : Cmd} {s : State}

/-- A SCANOUT that passes its checks leaves its first `k` events when it is abandoned. -/
theorem abandoned_scanout (hd : decode w = .ok .scanout) (h : s.cause = 0) {m : Memory} (hm : s.fb = some m) (k : Nat) :
    abandoned w k s = emit ((scanLines s.params m).take k) s := by
  simp only [abandoned, hd, hm, accept_executes h]

/-- Any other command leaves nothing: another command, a discarded one, or a SCANOUT without a framebuffer. -/
theorem abandoned_nothing (hn : decode w ≠ .ok .scanout ∨ s.cause ≠ 0 ∨ s.fb = none) (k : Nat) :
    abandoned w k s = s := by
  unfold abandoned
  split
  · next hd =>
    rcases hn with hne | h | hf
    · exact absurd hd hne
    · exact accept_discards h _
    · rw [hf]; exact ite_self _
  · rfl

theorem abandoned_frame (w : Cmd) (k : Nat) (s : State) :
    (abandoned w k s).asset = s.asset ∧ (abandoned w k s).script = s.script ∧
      (abandoned w k s).delivered = s.delivered := by
  rcases abandoned_cases w k s with he | ⟨m, -, he⟩ <;> rw [he] <;> exact ⟨rfl, rfl, rfl⟩

end abandoned

/-- The first `k` events of a SCANOUT, `k` up to `W`, are its lines `0 .. k - 1`, each whole. -/
theorem take_scanLines (p : Params) (m : Memory) {k : Nat} (hk : k ≤ p.W) :
    ((scanLines p m).take k).length = k ∧
      ∀ j, j < k → ((scanLines p m).take k)[j]? = some ⟨j, lineBytes p m j⟩ := by
  refine ⟨by rw [List.length_take, length_scanLines, min_eq_left hk], fun j hj => ?_⟩
  rw [List.getElem?_take_of_lt hj, scanLines_getElem? p m (by omega)]

/-- Settles O27: reset delivers the trace together with what the abandoned command has emitted. -/
theorem resetDuringCommand : Obligations.ResetDuringCommand := by
  intro s w k rest hs
  obtain ⟨hasset, hscript, hdelivered⟩ := abandoned_frame w k (advance s rest)
  refine ⟨afterReset (abandoned w k (advance s rest)), step_performs hs, status_eq_zero rfl rfl, rfl, rfl, rfl, rfl, rfl,
    rfl, abandoned_params .., hasset, hscript, fun hd h m hm hk => ?_, fun hn => ?_⟩ <;>
    rw [afterReset_delivered, hdelivered]
  · refine ⟨(scanLines s.params m).take k, ?_, take_scanLines s.params m hk⟩
    rw [abandoned_scanout (s := advance s rest) hd h hm, emit_trace, advance_delivered, advance_trace, advance_params,
      List.append_assoc]
  · rw [abandoned_nothing (s := advance s rest) hn, advance_delivered, advance_trace]

/-! A host with nothing to issue. -/

/-- Settles O10: the other outcome of a step takes an action of the script. -/
theorem idleMachineStays : Obligations.IdleMachineStays := by
  intro s hs
  rcases step_cases s with ⟨-, he⟩ | ⟨act, rest, hcons, -⟩
  · exact he
  · cases hs.symm.trans hcons

end Sys2Proof.Machine
end
